-- ==== Sys2Proof/Word.lean ====
section
/-! DEFINITION. The widths of the machine's values (spec/00_scope.md R8, R12). -/

namespace Sys2Proof

/-- A register, constant, data value, address or PC: 64 bits (R8 `XLEN`, R12). Its signed reading `s(v)` is `toInt`,
its unsigned reading `u(v)` is `toNat`; `+` and `-` are modulo 2^64. -/
abbrev Word := BitVec 64

/-- One byte of memory (R12). -/
abbrev Byte := BitVec 8

/-- Half a byte: `icode`, `ifun` or a register field as encoded (R12, R80). -/
abbrev Nibble := BitVec 4

end Sys2Proof
end

