-- ==== Sys2Proof/Config.lean ====
section
/-! DEFINITION. The implementation's constants (spec/00_scope.md R8) and the values the spec leaves open (R9). -/

namespace Sys2Proof.Config

/-- `MEM_SIZE`: the number of bytes of memory (R8, R51). -/
abbrev memSize : Nat := 0x10000

/-- The longest instruction, in bytes (R8, R81 format `ORV`). -/
abbrev maxLength : Nat := 10

/-- FREE VALUE `OPQ_RSVD_VALE` (R9, R113, R175, D6): the result of the `n`-th reserved OPQ executed. It has no body, so
nothing can be proved of it. DESIGN CHOICE (log entry 3): indexed by the draw counter of State. -/
opaque opqRsvdValE : Nat → Word

/-- FREE VALUE `OPQ_RSVD_OF` (R9, R114, R175, D6): the overflow flag of the `n`-th reserved OPQ executed. It has no body.
DESIGN CHOICE (log entry 3): indexed by the draw counter of State. -/
opaque opqRsvdOf : Nat → Bool

end Sys2Proof.Config
end

