-- ==== Sys2Proof/Machine/State.lean ====
section
/-! DEFINITION. The architectural state (spec/10_state.md R20) and the state after reset (R37). -/

namespace Sys2Proof.Machine

/-- Memory: (address, byte) pairs, addresses strictly rising, no byte listed that equals what an unlisted address reads
as (`Memory.unlisted`, R60). `Memory.wf` states the form. DESIGN CHOICE of representation: log entry 10. -/
abbrev Memory := List Host.Cell

/-- The fifteen general registers, in id order (R22). -/
structure RegFile where
  rax : Word
  rcx : Word
  rdx : Word
  rbx : Word
  rsp : Word
  rbp : Word
  rsi : Word
  rdi : Word
  r8 : Word
  r9 : Word
  r10 : Word
  r11 : Word
  r12 : Word
  r13 : Word
  r14 : Word
  deriving DecidableEq, Repr

/-- The condition flags ZF, SF, OF (R29); a trace record calls them `CC`. -/
structure Flags where
  zf : Bool
  sf : Bool
  of : Bool
  deriving DecidableEq, Repr

/-- The status codes (R30, R230). -/
inductive Stat where
  /-- 1: running. -/
  | AOK
  /-- 2: a `halt` was executed. -/
  | HLT
  /-- 3: bytes outside memory were fetched or accessed. -/
  | ADR
  /-- 4: `icode` above 0xB. -/
  | INS
  deriving DecidableEq, Repr

/-- The architectural state: exactly the fields of R20, and `draws`, the model's own counter of free values (R175, D6,
log entry 4). -/
structure State where
  pc : Word
  regs : RegFile
  cc : Flags
  stat : Stat
  mem : Memory
  draws : Nat
  deriving DecidableEq, Repr

/-- Why `step` stops without a next state. -/
inductive Fault where
  /-- Raised by `step` alone, when STAT is not AOK: the spec takes no step from such a state (R121, D8). Safe: the
  hardware does nothing there either. -/
  | stopped
  deriving DecidableEq, Repr

/-- Why an instruction has no meaning. -/
inductive Refusal where
  /-- Raised by `exec`'s arm of an instruction that has no meaning yet; no arm is one. Safe: nothing is claimed. -/
  | notModelled (mnemonic : String)
  deriving DecidableEq, Repr

/-- The state after reset (R20, R37, R260): everything 0 but ZF, which is 1, and STAT, which is AOK; every byte of memory
0. `draws` is DESIGN CHOICE 0 (log entry 4). -/
def State.reset : State where
  pc := 0
  regs :=
    { rax := 0, rcx := 0, rdx := 0, rbx := 0, rsp := 0, rbp := 0, rsi := 0, rdi := 0
      r8 := 0, r9 := 0, r10 := 0, r11 := 0, r12 := 0, r13 := 0, r14 := 0 }
  cc := { zf := true, sf := false, of := false }
  stat := .AOK
  mem := []
  draws := 0

end Sys2Proof.Machine
end

