-- ==== Sys2Proof/Syntax.lean ====
section
/-! DEFINITION. The instructions: register ids, classes, conditions, and one constructor per row of
spec/opcode_table.json (spec/30_encoding.md). -/

namespace Sys2Proof

/-- A 4-bit register id (R22): the fifteen registers in id order, then `NONE` (id 15, "no register"). -/
inductive RegId where
  | rax | rcx | rdx | rbx | rsp | rbp | rsi | rdi
  | r8 | r9 | r10 | r11 | r12 | r13 | r14
  | NONE
  deriving DecidableEq, Repr

/-- The twelve instruction classes, in rising `icode` order 0x0 to 0xB (R85; the numbers of eight of them are
PRESUMED, log entry 5). -/
inductive IClass where
  | HALT | NOP | RRMOVQ | IRMOVQ | RMMOVQ | MRMOVQ | OPQ | JXX | CALL | RET | PUSHQ | POPQ
  deriving DecidableEq, Repr

/-- The conditions of jumps and conditional moves (R87, R115). `always` is `ifun = 0`, `never` is `ifun` 7 to 15. -/
inductive Cond where
  | always | le | l | e | ne | ge | g | never
  deriving DecidableEq, Repr

/-- An instruction as decoded: one constructor per row of spec/opcode_table.json. Fields that no phase reads (`ifun` of
nine classes, R88; `rA` of `irmovq`, `rB` of `pushq` and `popq`, R91) are kept, so that no bit of an encoding is lost
(DESIGN CHOICE, log entry 15). `rA`, `rB` are the register fields in the roles of R93; `dest` is the absolute target. -/
inductive Instr where
  /-- R140: first bytes 0x00 to 0x0F. -/
  | halt (ifun : Nibble)
  /-- R141: first bytes 0x10 to 0x1F. -/
  | nop (ifun : Nibble)
  /-- R150: 0x20. -/
  | rrmovq (rA rB : RegId)
  /-- R151: 0x21. -/
  | cmovle (rA rB : RegId)
  /-- R152: 0x22. -/
  | cmovl (rA rB : RegId)
  /-- R153: 0x23. -/
  | cmove (rA rB : RegId)
  /-- R154: 0x24. -/
  | cmovne (rA rB : RegId)
  /-- R155: 0x25. -/
  | cmovge (rA rB : RegId)
  /-- R156: 0x26. -/
  | cmovg (rA rB : RegId)
  /-- R157: 0x27. -/
  | reservedCmov7 (rA rB : RegId)
  /-- R157: 0x28 to 0x2F. -/
  | reservedCmov8to15 (ifun : Nibble) (rA rB : RegId)
  /-- R158: 0x30 to 0x3F. -/
  | irmovq (ifun : Nibble) (rA rB : RegId) (valC : Word)
  /-- R159: 0x40 to 0x4F. -/
  | rmmovq (ifun : Nibble) (rA rB : RegId) (valC : Word)
  /-- R160: 0x50 to 0x5F. -/
  | mrmovq (ifun : Nibble) (rA rB : RegId) (valC : Word)
  /-- R171: 0x60. -/
  | addq (rA rB : RegId)
  /-- R172: 0x61. -/
  | subq (rA rB : RegId)
  /-- R173: 0x62. -/
  | andq (rA rB : RegId)
  /-- R174: 0x63. -/
  | xorq (rA rB : RegId)
  /-- R175: 0x64 to 0x67. -/
  | reservedOpq4to7 (ifun : Nibble) (rA rB : RegId)
  /-- R175: 0x68 to 0x6F. -/
  | reservedOpq8to15 (ifun : Nibble) (rA rB : RegId)
  /-- R190: 0x70. -/
  | jmp (dest : Word)
  /-- R191: 0x71. -/
  | jle (dest : Word)
  /-- R192: 0x72. -/
  | jl (dest : Word)
  /-- R193: 0x73. -/
  | je (dest : Word)
  /-- R194: 0x74. -/
  | jne (dest : Word)
  /-- R195: 0x75. -/
  | jge (dest : Word)
  /-- R196: 0x76. -/
  | jg (dest : Word)
  /-- R197: 0x77. -/
  | reservedJump7 (dest : Word)
  /-- R197: 0x78 to 0x7F. -/
  | reservedJump8to15 (ifun : Nibble) (dest : Word)
  /-- R198: 0x80 to 0x8F. -/
  | call (ifun : Nibble) (dest : Word)
  /-- R199: 0x90 to 0x9F. -/
  | ret (ifun : Nibble)
  /-- R215: 0xA0 to 0xAF. -/
  | pushq (ifun : Nibble) (rA rB : RegId)
  /-- R216: 0xB0 to 0xBF. -/
  | popq (ifun : Nibble) (rA rB : RegId)
  /-- R89, R232: first bytes 0xC0 to 0xFF; the whole first byte is kept. -/
  | illegal (byte0 : Byte)
  deriving DecidableEq, Repr

end Sys2Proof
end

