-- ==== Sys2Proof/Machine/Flags.lean ====
section
/-! DEFINITION. The flag computations (spec/40_step_skeleton.md R114) and the condition function (R115). -/

namespace Sys2Proof.Machine

/-- `OF` of an addition, the printed predicate (R114, R171): `a = s(valA)`, `b = s(valB)`, `e = s(valE)`. -/
def addOverflow (valA valB valE : Word) : Bool :=
  (decide (valA.toInt > 0) && decide (valB.toInt > 0) && decide (valE.toInt < 0)) ||
  (decide (valA.toInt < 0) && decide (valB.toInt < 0) && decide (valE.toInt ≥ 0))

/-- `OF` of the subtraction `b - a`, the printed predicate with its strict `b > 0` (R114, R172; conflicts C1, C5: the
formula wins, log entry 16). -/
def subOverflow (valA valB valE : Word) : Bool :=
  (decide (valB.toInt > 0) && decide (valA.toInt < 0) && decide (valE.toInt < 0)) ||
  (decide (valB.toInt < 0) && decide (valA.toInt > 0) && decide (valE.toInt ≥ 0))

/-- The flags an OPQ leaves: `ZF` and `SF` from the result, `OF` as given (R114, R170). -/
def Flags.ofResult (valE : Word) (overflow : Bool) : Flags :=
  { zf := decide (valE.toInt = 0), sf := decide (valE.toInt < 0), of := overflow }

/-- `cond(ifun)`: whether a condition holds of the flags (R115). -/
def condHolds : Cond → Flags → Bool
  | .always, _ => true
  | .le, f => (f.sf ^^ f.of) || f.zf
  | .l, f => f.sf ^^ f.of
  | .e, f => f.zf
  | .ne, f => !f.zf
  | .ge, f => !(f.sf ^^ f.of)
  | .g, f => !(f.sf ^^ f.of) && !f.zf
  | .never, _ => false

end Sys2Proof.Machine
end

