-- ==== Sys2Proof/WellFormed.lean ====
section
/-! DEFINITION. Which terms of `Instr` stand for an encoding: the ranges of the fields that a row of
spec/opcode_table.json restricts (spec/30_encoding.md R86, R87, R89). -/

namespace Sys2Proof

/-- The instruction stands for an encoding: a reserved row's `ifun` lies in the row's range, an illegal row's byte has
`icode` above 0xB. Every other field admits every value (R88, R91). -/
def Instr.wf : Instr → Bool
  | .halt _ => true
  | .nop _ => true
  | .rrmovq _ _ => true
  | .cmovle _ _ => true
  | .cmovl _ _ => true
  | .cmove _ _ => true
  | .cmovne _ _ => true
  | .cmovge _ _ => true
  | .cmovg _ _ => true
  | .reservedCmov7 _ _ => true
  | .reservedCmov8to15 ifun _ _ => decide (8 ≤ ifun.toNat)
  | .irmovq _ _ _ _ => true
  | .rmmovq _ _ _ _ => true
  | .mrmovq _ _ _ _ => true
  | .addq _ _ => true
  | .subq _ _ => true
  | .andq _ _ => true
  | .xorq _ _ => true
  | .reservedOpq4to7 ifun _ _ => decide (4 ≤ ifun.toNat ∧ ifun.toNat ≤ 7)
  | .reservedOpq8to15 ifun _ _ => decide (8 ≤ ifun.toNat)
  | .jmp _ => true
  | .jle _ => true
  | .jl _ => true
  | .je _ => true
  | .jne _ => true
  | .jge _ => true
  | .jg _ => true
  | .reservedJump7 _ => true
  | .reservedJump8to15 ifun _ => decide (8 ≤ ifun.toNat)
  | .call _ _ => true
  | .ret _ => true
  | .pushq _ _ _ => true
  | .popq _ _ _ => true
  | .illegal byte0 => decide (0xC0 ≤ byte0.toNat)

end Sys2Proof
end

