-- ==== Sys2Proof/Decode.lean ====
section
/-! DEFINITION. Bytes to instructions and back (spec/30_encoding.md), with the nibble and byte-order helpers (R56, R80)
that memory accesses use as well. -/

namespace Sys2Proof

/-! ### Byte order (R56) -/

/-- The number that bytes spell, the first one least significant: `sum over i of u(b_i) * 2^(8i)` (R56). -/
def leNat : List Byte → Nat
  | [] => 0
  | b :: bs => b.toNat + 256 * leNat bs

/-- The `n` low bytes of a number, least significant first (R54, R56). -/
def toBytes : Nat → Nat → List Byte
  | 0, _ => []
  | n + 1, v => BitVec.ofNat 8 v :: toBytes n (v / 256)

/-- `LE64`: the 64-bit value of eight bytes, least significant first (R13, R56). -/
def le64 (bs : List Byte) : Word := BitVec.ofNat 64 (leNat bs)

/-- The eight bytes of a 64-bit value, least significant first (R54). -/
def wordBytes (v : Word) : List Byte := toBytes 8 v.toNat

/-! ### Nibbles (R12, R80) -/

/-- `b[7:4]`: `icode` of byte 0, `rA` of the register byte. -/
def highNibble (b : Byte) : Nibble := b.extractLsb' 4 4

/-- `b[3:0]`: `ifun` of byte 0, `rB` of the register byte. -/
def lowNibble (b : Byte) : Nibble := b.extractLsb' 0 4

/-- The byte with the given high and low nibble. -/
def nibbles (hi lo : Nibble) : Byte := hi ++ lo

/-! ### Register ids (R22, R82) -/

/-- The register a 4-bit field names (R22). -/
def RegId.ofNibble (n : Nibble) : RegId :=
  match n.toNat with
  | 0 => .rax | 1 => .rcx | 2 => .rdx | 3 => .rbx | 4 => .rsp | 5 => .rbp | 6 => .rsi | 7 => .rdi
  | 8 => .r8 | 9 => .r9 | 10 => .r10 | 11 => .r11 | 12 => .r12 | 13 => .r13 | 14 => .r14
  | _ => .NONE

/-- The id of a register (R22). -/
def RegId.toNibble : RegId → Nibble
  | .rax => 0 | .rcx => 1 | .rdx => 2 | .rbx => 3 | .rsp => 4 | .rbp => 5 | .rsi => 6 | .rdi => 7
  | .r8 => 8 | .r9 => 9 | .r10 => 10 | .r11 => 11 | .r12 => 12 | .r13 => 13 | .r14 => 14
  | .NONE => 15

/-! ### Classes (R82 to R85) -/

/-- The class an `icode` selects; none for 0xC to 0xF (R85, R89; PRESUMED numbers: log entry 5). -/
def IClass.ofNibble (n : Nibble) : Option IClass :=
  match n.toNat with
  | 0 => some .HALT | 1 => some .NOP | 2 => some .RRMOVQ | 3 => some .IRMOVQ | 4 => some .RMMOVQ | 5 => some .MRMOVQ
  | 6 => some .OPQ | 7 => some .JXX | 8 => some .CALL | 9 => some .RET | 10 => some .PUSHQ | 11 => some .POPQ
  | _ => none

/-- The `icode` of a class (R85). -/
def IClass.toNibble : IClass → Nibble
  | .HALT => 0 | .NOP => 1 | .RRMOVQ => 2 | .IRMOVQ => 3 | .RMMOVQ => 4 | .MRMOVQ => 5
  | .OPQ => 6 | .JXX => 7 | .CALL => 8 | .RET => 9 | .PUSHQ => 10 | .POPQ => 11

/-- The class has a register-specifier byte (R82). -/
def IClass.hasRegByte : IClass → Bool
  | .RRMOVQ | .IRMOVQ | .RMMOVQ | .MRMOVQ | .OPQ | .PUSHQ | .POPQ => true
  | .HALT | .NOP | .JXX | .CALL | .RET => false

/-- The class has an 8-byte constant (R83). -/
def IClass.hasConst : IClass → Bool
  | .IRMOVQ | .RMMOVQ | .MRMOVQ | .JXX | .CALL => true
  | .HALT | .NOP | .RRMOVQ | .OPQ | .RET | .PUSHQ | .POPQ => false

/-- The length of an instruction in bytes, from its class alone (R84). -/
def IClass.length (c : IClass) : Nat :=
  1 + (if c.hasRegByte then 1 else 0) + (if c.hasConst then 8 else 0)

/-- The length of the instruction that starts with a byte; 1 for an illegal byte, after which nothing is read (R84,
R89). -/
def opcodeLength (b0 : Byte) : Nat :=
  match IClass.ofNibble (highNibble b0) with
  | some c => c.length
  | none => 1

/-! ### The decoder -/

/-- Why bytes hold no whole instruction: they end before a byte it needs. Every encoding of byte 0 has a meaning
(R92), so this is the only way decoding fails. -/
inductive DecodeError where
  /-- No byte 0. -/
  | noOpcode
  /-- The register-specifier byte is missing. -/
  | noRegisterByte
  /-- Not all eight constant bytes are there. -/
  | noConstant
  deriving DecidableEq, Repr

/-- Reads the register-specifier byte: `rA` high, `rB` low (R82). -/
def takeRegs : List Byte → Except DecodeError (RegId × RegId × List Byte)
  | [] => .error .noRegisterByte
  | b :: rest => .ok (.ofNibble (highNibble b), .ofNibble (lowNibble b), rest)

/-- Reads the 8-byte little-endian constant (R83). -/
def takeConst (bs : List Byte) : Except DecodeError (Word × List Byte) :=
  if 8 ≤ bs.length then .ok (le64 (bs.take 8), bs.drop 8) else .error .noConstant

/-- The RRMOVQ instruction of an `ifun` (R87). -/
def decodeMove (ifun : Nibble) (rA rB : RegId) : Instr :=
  match ifun.toNat with
  | 0 => .rrmovq rA rB | 1 => .cmovle rA rB | 2 => .cmovl rA rB | 3 => .cmove rA rB
  | 4 => .cmovne rA rB | 5 => .cmovge rA rB | 6 => .cmovg rA rB
  | 7 => .reservedCmov7 rA rB
  | _ => .reservedCmov8to15 ifun rA rB

/-- The OPQ instruction of an `ifun` (R86, R90). -/
def decodeOpq (ifun : Nibble) (rA rB : RegId) : Instr :=
  match ifun.toNat with
  | 0 => .addq rA rB | 1 => .subq rA rB | 2 => .andq rA rB | 3 => .xorq rA rB
  | 4 | 5 | 6 | 7 => .reservedOpq4to7 ifun rA rB
  | _ => .reservedOpq8to15 ifun rA rB

/-- The JXX instruction of an `ifun` (R87). -/
def decodeJump (ifun : Nibble) (dest : Word) : Instr :=
  match ifun.toNat with
  | 0 => .jmp dest | 1 => .jle dest | 2 => .jl dest | 3 => .je dest
  | 4 => .jne dest | 5 => .jge dest | 6 => .jg dest
  | 7 => .reservedJump7 dest
  | _ => .reservedJump8to15 ifun dest

/-- Decodes the instruction of a class from the bytes after byte 0, in the order register byte, constant (R81). -/
def decodeClass (c : IClass) (ifun : Nibble) (bs : List Byte) : Except DecodeError (Instr × List Byte) :=
  match c with
  | .HALT => .ok (.halt ifun, bs)
  | .NOP => .ok (.nop ifun, bs)
  | .RRMOVQ => do
    let (rA, rB, rest) ← takeRegs bs
    .ok (decodeMove ifun rA rB, rest)
  | .IRMOVQ => do
    let (rA, rB, rest) ← takeRegs bs
    let (valC, rest) ← takeConst rest
    .ok (.irmovq ifun rA rB valC, rest)
  | .RMMOVQ => do
    let (rA, rB, rest) ← takeRegs bs
    let (valC, rest) ← takeConst rest
    .ok (.rmmovq ifun rA rB valC, rest)
  | .MRMOVQ => do
    let (rA, rB, rest) ← takeRegs bs
    let (valC, rest) ← takeConst rest
    .ok (.mrmovq ifun rA rB valC, rest)
  | .OPQ => do
    let (rA, rB, rest) ← takeRegs bs
    .ok (decodeOpq ifun rA rB, rest)
  | .JXX => do
    let (valC, rest) ← takeConst bs
    .ok (decodeJump ifun valC, rest)
  | .CALL => do
    let (valC, rest) ← takeConst bs
    .ok (.call ifun valC, rest)
  | .RET => .ok (.ret ifun, bs)
  | .PUSHQ => do
    let (rA, rB, rest) ← takeRegs bs
    .ok (.pushq ifun rA rB, rest)
  | .POPQ => do
    let (rA, rB, rest) ← takeRegs bs
    .ok (.popq ifun rA rB, rest)

/-- Decodes the instruction at the head of a list of bytes and returns the bytes after it (R80 to R92). For an illegal
first byte nothing after it is read (R89, R232). -/
def decode : List Byte → Except DecodeError (Instr × List Byte)
  | [] => .error .noOpcode
  | b0 :: rest =>
    match IClass.ofNibble (highNibble b0) with
    | none => .ok (.illegal b0, rest)
    | some c => decodeClass c (lowNibble b0) rest

/-! ### The encoder, from the same tables -/

/-- Format `O` (R81). -/
def encodeO (c : IClass) (ifun : Nibble) : List Byte := [nibbles c.toNibble ifun]

/-- Format `OR` (R81). -/
def encodeOR (c : IClass) (ifun : Nibble) (rA rB : RegId) : List Byte :=
  [nibbles c.toNibble ifun, nibbles rA.toNibble rB.toNibble]

/-- Format `OV` (R81). -/
def encodeOV (c : IClass) (ifun : Nibble) (valC : Word) : List Byte :=
  nibbles c.toNibble ifun :: wordBytes valC

/-- Format `ORV` (R81). -/
def encodeORV (c : IClass) (ifun : Nibble) (rA rB : RegId) (valC : Word) : List Byte :=
  nibbles c.toNibble ifun :: nibbles rA.toNibble rB.toNibble :: wordBytes valC

/-- The bytes of an instruction, first byte first (R96). -/
def encode : Instr → List Byte
  | .halt ifun => encodeO .HALT ifun
  | .nop ifun => encodeO .NOP ifun
  | .rrmovq rA rB => encodeOR .RRMOVQ 0 rA rB
  | .cmovle rA rB => encodeOR .RRMOVQ 1 rA rB
  | .cmovl rA rB => encodeOR .RRMOVQ 2 rA rB
  | .cmove rA rB => encodeOR .RRMOVQ 3 rA rB
  | .cmovne rA rB => encodeOR .RRMOVQ 4 rA rB
  | .cmovge rA rB => encodeOR .RRMOVQ 5 rA rB
  | .cmovg rA rB => encodeOR .RRMOVQ 6 rA rB
  | .reservedCmov7 rA rB => encodeOR .RRMOVQ 7 rA rB
  | .reservedCmov8to15 ifun rA rB => encodeOR .RRMOVQ ifun rA rB
  | .irmovq ifun rA rB valC => encodeORV .IRMOVQ ifun rA rB valC
  | .rmmovq ifun rA rB valC => encodeORV .RMMOVQ ifun rA rB valC
  | .mrmovq ifun rA rB valC => encodeORV .MRMOVQ ifun rA rB valC
  | .addq rA rB => encodeOR .OPQ 0 rA rB
  | .subq rA rB => encodeOR .OPQ 1 rA rB
  | .andq rA rB => encodeOR .OPQ 2 rA rB
  | .xorq rA rB => encodeOR .OPQ 3 rA rB
  | .reservedOpq4to7 ifun rA rB => encodeOR .OPQ ifun rA rB
  | .reservedOpq8to15 ifun rA rB => encodeOR .OPQ ifun rA rB
  | .jmp dest => encodeOV .JXX 0 dest
  | .jle dest => encodeOV .JXX 1 dest
  | .jl dest => encodeOV .JXX 2 dest
  | .je dest => encodeOV .JXX 3 dest
  | .jne dest => encodeOV .JXX 4 dest
  | .jge dest => encodeOV .JXX 5 dest
  | .jg dest => encodeOV .JXX 6 dest
  | .reservedJump7 dest => encodeOV .JXX 7 dest
  | .reservedJump8to15 ifun dest => encodeOV .JXX ifun dest
  | .call ifun dest => encodeOV .CALL ifun dest
  | .ret ifun => encodeO .RET ifun
  | .pushq ifun rA rB => encodeOR .PUSHQ ifun rA rB
  | .popq ifun rA rB => encodeOR .POPQ ifun rA rB
  | .illegal byte0 => [byte0]

/-! ### The host's numbering of table words -/

/-- The bytes of a word of spec/opcode_table.json: byte 0 holds bits 7..0, byte 1 bits 15..8, and so on; every bit from
`nbits` up is 0, up to the longest instruction. -/
def tableBytes (nbits w : Nat) : List Byte := toBytes Config.maxLength (w % 2 ^ nbits)

/-- The instruction the decoder reads from a word of spec/opcode_table.json, none where it refuses. -/
def decodeTableWord (nbits w : Nat) : Option Instr :=
  match decode (tableBytes nbits w) with
  | .ok (i, _) => some i
  | .error _ => none

end Sys2Proof
end

