-- ==== Sys2Proof/Machine/Ops.lean ====
section
/-! DEFINITION. The named operations over memory, registers, STAT and PC that every meaning is built from. -/

namespace Sys2Proof.Machine

/-! ### Memory (spec/20_memory.md) -/

/-- What an address that is not listed reads as: 0 (R20, R60). -/
def Memory.unlisted : Byte := 0

/-- The canonical form from address `lo` up: addresses strictly rising, inside memory, no listed byte equal to
`Memory.unlisted`. -/
def Memory.wfFrom (lo : Nat) : Memory → Bool
  | [] => true
  | (a, b) :: m => decide (lo ≤ a) && decide (a < Config.memSize) && decide (b ≠ unlisted) && wfFrom (a + 1) m

/-- The canonical form of memory. -/
def Memory.wf (m : Memory) : Bool := m.wfFrom 0

/-- The byte `MEM[a]` (R53, R55, R60). -/
def Memory.readByte : Memory → Nat → Byte
  | [], _ => unlisted
  | (b, x) :: m, a => if a = b then x else readByte m a

/-- `MEM[a] := v`, in canonical form. -/
def Memory.writeByte : Memory → Nat → Byte → Memory
  | [], a, v => if v = unlisted then [] else [(a, v)]
  | (b, x) :: m, a, v =>
    if a < b then (if v = unlisted then (b, x) :: m else (a, v) :: (b, x) :: m)
    else if a = b then (if v = unlisted then m else (a, v) :: m)
    else (b, x) :: writeByte m a v

/-- The `n` bytes from address `a` up. -/
def Memory.readBytes (m : Memory) (a : Nat) : Nat → List Byte
  | 0 => []
  | n + 1 => m.readByte a :: readBytes m (a + 1) n

/-- Stores bytes at `a`, `a + 1`, and so on. -/
def Memory.writeBytes (m : Memory) (a : Nat) : List Byte → Memory
  | [] => m
  | b :: bs => (m.writeByte a b).writeBytes (a + 1) bs

/-- `InRange8(a)`: `0 <= s(a)` and `s(a) + 8 <= 0x10000`, the sum taken in the integers (R52; no wrap, D5). -/
def inRange8 (a : Word) : Bool := decide (0 ≤ a.toInt) && decide (a.toInt + 8 ≤ Config.memSize)

/-- `InRange1(a)`: `0 <= s(a) < 0x10000` (R55). -/
def inRange1 (a : Word) : Bool := decide (0 ≤ a.toInt) && decide (a.toInt < Config.memSize)

/-- `read8`: the little-endian 64-bit value at `a`, none when the access is out of range (R53). -/
def Memory.read8 (m : Memory) (a : Word) : Option Word :=
  if inRange8 a then some (le64 (m.readBytes a.toNat 8)) else none

/-- `write8`: memory with the 64-bit value stored little-endian at `a`, none (nothing stored) when the access is out of
range (R54). -/
def Memory.write8 (m : Memory) (a v : Word) : Option Memory :=
  if inRange8 a then some (m.writeBytes a.toNat (wordBytes v)) else none

/-- The loader's `writeByte`: a byte outside memory is dropped (R68). -/
def Memory.loadByte (m : Memory) (a : Nat) (v : Byte) : Memory :=
  if a < Config.memSize then m.writeByte a v else m

/-- Stores the bytes of one data line of an image from address `a` up (R263). -/
def Memory.loadBytes (m : Memory) (a : Nat) : List Byte → Memory
  | [] => m
  | b :: bs => (m.loadByte a b).loadBytes (a + 1) bs

/-! ### Registers (spec/10_state.md R24) -/

/-- `get(id)`: NONE reads 0 (R24). -/
def RegFile.get (f : RegFile) : RegId → Word
  | .rax => f.rax | .rcx => f.rcx | .rdx => f.rdx | .rbx => f.rbx | .rsp => f.rsp | .rbp => f.rbp | .rsi => f.rsi
  | .rdi => f.rdi | .r8 => f.r8 | .r9 => f.r9 | .r10 => f.r10 | .r11 => f.r11 | .r12 => f.r12 | .r13 => f.r13
  | .r14 => f.r14
  | .NONE => 0

/-- `set(id, v)`: a write of NONE is dropped (R24). -/
def RegFile.set (f : RegFile) (r : RegId) (v : Word) : RegFile :=
  match r with
  | .rax => { f with rax := v } | .rcx => { f with rcx := v } | .rdx => { f with rdx := v }
  | .rbx => { f with rbx := v } | .rsp => { f with rsp := v } | .rbp => { f with rbp := v }
  | .rsi => { f with rsi := v } | .rdi => { f with rdi := v } | .r8 => { f with r8 := v }
  | .r9 => { f with r9 := v } | .r10 => { f with r10 := v } | .r11 => { f with r11 := v }
  | .r12 => { f with r12 := v } | .r13 => { f with r13 := v } | .r14 => { f with r14 := v }
  | .NONE => f

/-- `x[r]` (R13). -/
def State.reg (s : State) (r : RegId) : Word := s.regs.get r

/-- `x[r] <- v` (R13). -/
def State.setReg (s : State) (r : RegId) (v : Word) : State := { s with regs := s.regs.set r v }

/-- Replaces memory. -/
def State.setMem (s : State) (m : Memory) : State := { s with mem := m }

/-- Writes all three flags at once (R29, R114). -/
def State.setFlags (s : State) (f : Flags) : State := { s with cc := f }

/-- Counts a free value as drawn (log entry 4). -/
def State.draw (s : State) : State := { s with draws := s.draws + 1 }

/-! ### Taking an exception (spec/60_exceptions.md R230, R236) -/

/-- `raise X`: STAT becomes `X` and nothing more (R13, R230). This is all that taking an exception is here: no state is
saved, no mode changes, control goes nowhere (R236). There is no return from one (R238). -/
def State.raise (s : State) (x : Stat) : State := { s with stat := x }

/-! ### PC update (spec/40_step_skeleton.md R119) -/

/-- The PC-update phase: PC becomes the target when STAT is AOK at that point, else it stays (R26, R119). -/
def State.pcUpdate (s : State) (target : Word) : State :=
  match s.stat with
  | .AOK => { s with pc := target }
  | .HLT | .ADR | .INS => s

/-! ### The Memory phase (R117) -/

/-- The 8-byte write of the Memory phase: out of range, memory is unchanged and ADR is raised (R117, R231 A4). -/
def State.store (s : State) (addr v : Word) : State :=
  match s.mem.write8 addr v with
  | some m => s.setMem m
  | none => s.raise .ADR

/-- `valM` of the 8-byte read of the Memory phase: 0 when out of range (R53, R117). -/
def State.loadValue (s : State) (addr : Word) : Word :=
  match s.mem.read8 addr with
  | some v => v
  | none => 0

/-- The state after the 8-byte read of the Memory phase: out of range, ADR is raised (R117, R231 A5). -/
def State.load (s : State) (addr : Word) : State :=
  match s.mem.read8 addr with
  | some _ => s
  | none => s.raise .ADR

/-! ### Stop (R121) -/

/-- The machine has stopped: STAT is not AOK (kind a), or PC lies outside memory (kind b) (R121). -/
def State.stopped (s : State) : Bool := decide (s.stat ≠ .AOK) || !inRange1 s.pc

end Sys2Proof.Machine
end

