-- ==== Sys2Proof/Machine/Operands.lean ====
section
/-! DEFINITION. The operand forms: sequential addresses, displacement addresses and the implicit stack operands
(spec/40_step_skeleton.md R113, R117; spec/20_memory.md R69). -/

namespace Sys2Proof.Machine

/-- `valP`: the address after an instruction of `len` bytes at PC (R27, R84). -/
def State.valP (s : State) (len : Nat) : Word := s.pc + BitVec.ofNat 64 len

/-- The effective address of `D(rB)`: `x[rB] + D` modulo 2^64 (R69, R113). -/
def State.dispAddr (s : State) (rB : RegId) (d : Word) : Word := s.reg rB + d

/-- The stack pointer after a push, and the address the push writes: `x[rsp] - 8` (R113, R117). -/
def State.pushAddr (s : State) : Word := s.reg .rsp - 8

/-- The address a pop reads: `x[rsp]`, before the increment (R112, R117). -/
def State.popAddr (s : State) : Word := s.reg .rsp

/-- The stack pointer after a pop: `x[rsp] + 8` (R113). -/
def State.popNext (s : State) : Word := s.reg .rsp + 8

end Sys2Proof.Machine
end

