-- ==== Sys2Proof/Machine/Control.lean ====
section
/-! DEFINITION. Jumps, call and ret (spec/44_jxx_call_ret.md). -/

namespace Sys2Proof.Machine

/-- The common effect of class JXX: PC becomes the target when the condition holds, else PC + 9 (R115, R119). -/
def State.jump (s : State) (c : Cond) (dest : Word) : State :=
  s.pcUpdate (if condHolds c s.cc then dest else s.valP 9)

/-- R190. -/
def execJmp (dest : Word) (s : State) : Host.Outcome State Fault Refusal := .next (s.jump .always dest)

/-- R191. -/
def execJle (dest : Word) (s : State) : Host.Outcome State Fault Refusal := .next (s.jump .le dest)

/-- R192. -/
def execJl (dest : Word) (s : State) : Host.Outcome State Fault Refusal := .next (s.jump .l dest)

/-- R193. -/
def execJe (dest : Word) (s : State) : Host.Outcome State Fault Refusal := .next (s.jump .e dest)

/-- R194. -/
def execJne (dest : Word) (s : State) : Host.Outcome State Fault Refusal := .next (s.jump .ne dest)

/-- R195. -/
def execJge (dest : Word) (s : State) : Host.Outcome State Fault Refusal := .next (s.jump .ge dest)

/-- R196. -/
def execJg (dest : Word) (s : State) : Host.Outcome State Fault Refusal := .next (s.jump .g dest)

/-- R197: `ifun` 7, never jumps. -/
def execReservedJump7 (dest : Word) (s : State) : Host.Outcome State Fault Refusal := .next (s.jump .never dest)

/-- R197: `ifun` 8 to 15, never jumps. -/
def execReservedJump8to15 (_ifun : Nibble) (dest : Word) (s : State) : Host.Outcome State Fault Refusal :=
  .next (s.jump .never dest)

/-- R198: pushes `valP` and goes to `dest`; when the push fails, `rsp` is still decremented and PC stays (R118, D7, log
entry 8). `ifun` is ignored (R88). -/
def execCall (_ifun : Nibble) (dest : Word) (s : State) : Host.Outcome State Fault Refusal :=
  .next (((s.store s.pushAddr (s.valP 9)).setReg .rsp s.pushAddr).pcUpdate dest)

/-- R199: pops PC; when the read fails, `rsp` is still incremented and PC stays (R118, D7, log entry 8). `ifun` is
ignored (R88). -/
def execRet (_ifun : Nibble) (s : State) : Host.Outcome State Fault Refusal :=
  .next (((s.load s.popAddr).setReg .rsp s.popNext).pcUpdate (s.loadValue s.popAddr))

end Sys2Proof.Machine
end

