-- ==== Sys2Proof/Machine/HaltNop.lean ====
section
/-! DEFINITION. halt, nop (spec/41_halt_nop.md) and the illegal first bytes (spec/60_exceptions.md R232). -/

namespace Sys2Proof.Machine

/-- R140, R116: Execute raises HLT, the later phases do nothing, PC stays. `ifun` is ignored (R88). -/
def execHalt (_ifun : Nibble) (s : State) : Host.Outcome State Fault Refusal :=
  .next ((s.raise .HLT).pcUpdate (s.valP 1))

/-- R141: only PC moves. `ifun` is ignored (R88). -/
def execNop (_ifun : Nibble) (s : State) : Host.Outcome State Fault Refusal :=
  .next (s.pcUpdate (s.valP 1))

/-- R89, R232: Fetch raises INS and the step ends; only STAT changes. -/
def execIllegal (_byte0 : Byte) (s : State) : Host.Outcome State Fault Refusal :=
  .next (s.raise .INS)

end Sys2Proof.Machine
end

