-- ==== Sys2Proof/Machine/Moves.lean ====
section
/-! DEFINITION. Register, immediate and memory moves (spec/42_moves.md). -/

namespace Sys2Proof.Machine

/-- The common effect of class RRMOVQ: `rB <- x[rA]` when the condition holds, PC + 2 (R115, R118). -/
def State.condMove (s : State) (c : Cond) (rA rB : RegId) : State :=
  (if condHolds c s.cc then s.setReg rB (s.reg rA) else s).pcUpdate (s.valP 2)

/-- R150. -/
def execRrmovq (rA rB : RegId) (s : State) : Host.Outcome State Fault Refusal := .next (s.condMove .always rA rB)

/-- R151. -/
def execCmovle (rA rB : RegId) (s : State) : Host.Outcome State Fault Refusal := .next (s.condMove .le rA rB)

/-- R152. -/
def execCmovl (rA rB : RegId) (s : State) : Host.Outcome State Fault Refusal := .next (s.condMove .l rA rB)

/-- R153. -/
def execCmove (rA rB : RegId) (s : State) : Host.Outcome State Fault Refusal := .next (s.condMove .e rA rB)

/-- R154. -/
def execCmovne (rA rB : RegId) (s : State) : Host.Outcome State Fault Refusal := .next (s.condMove .ne rA rB)

/-- R155. -/
def execCmovge (rA rB : RegId) (s : State) : Host.Outcome State Fault Refusal := .next (s.condMove .ge rA rB)

/-- R156. -/
def execCmovg (rA rB : RegId) (s : State) : Host.Outcome State Fault Refusal := .next (s.condMove .g rA rB)

/-- R157: `ifun` 7, the condition is false. -/
def execReservedCmov7 (rA rB : RegId) (s : State) : Host.Outcome State Fault Refusal :=
  .next (s.condMove .never rA rB)

/-- R157: `ifun` 8 to 15, the condition is false. -/
def execReservedCmov8to15 (_ifun : Nibble) (rA rB : RegId) (s : State) : Host.Outcome State Fault Refusal :=
  .next (s.condMove .never rA rB)

/-- R158. `ifun` and `rA` are ignored (R88, R91). -/
def execIrmovq (_ifun : Nibble) (_rA rB : RegId) (valC : Word) (s : State) : Host.Outcome State Fault Refusal :=
  .next ((s.setReg rB valC).pcUpdate (s.valP 10))

/-- R159: stores `x[rA]` at `x[rB] + D`; out of range, only STAT changes. `ifun` is ignored (R88). -/
def execRmmovq (_ifun : Nibble) (rA rB : RegId) (valC : Word) (s : State) : Host.Outcome State Fault Refusal :=
  .next ((s.store (s.dispAddr rB valC) (s.reg rA)).pcUpdate (s.valP 10))

/-- R160: loads `rA` from `x[rB] + D`; out of range, ADR is raised and 0 still goes to `rA` (R118, D7, log entry 8).
`ifun` is ignored (R88). -/
def execMrmovq (_ifun : Nibble) (rA rB : RegId) (valC : Word) (s : State) : Host.Outcome State Fault Refusal :=
  let valE := s.dispAddr rB valC
  .next (((s.load valE).setReg rA (s.loadValue valE)).pcUpdate (s.valP 10))

end Sys2Proof.Machine
end

