-- ==== Sys2Proof/Machine/Opq.lean ====
section
/-! DEFINITION. Arithmetic and logic (spec/43_opq.md). -/

namespace Sys2Proof.Machine

/-- The common effect of class OPQ: the flags from the result, the result to `rB`, PC + 2 (R114, R118). -/
def State.opq (s : State) (rB : RegId) (valE : Word) (overflow : Bool) : State :=
  ((s.setFlags (.ofResult valE overflow)).setReg rB valE).pcUpdate (s.valP 2)

/-- R171: `rB <- x[rB] + x[rA]`. -/
def execAddq (rA rB : RegId) (s : State) : Host.Outcome State Fault Refusal :=
  let valE := s.reg rB + s.reg rA
  .next (s.opq rB valE (addOverflow (s.reg rA) (s.reg rB) valE))

/-- R172: `rB <- x[rB] - x[rA]`. -/
def execSubq (rA rB : RegId) (s : State) : Host.Outcome State Fault Refusal :=
  let valE := s.reg rB - s.reg rA
  .next (s.opq rB valE (subOverflow (s.reg rA) (s.reg rB) valE))

/-- R173. -/
def execAndq (rA rB : RegId) (s : State) : Host.Outcome State Fault Refusal :=
  .next (s.opq rB (s.reg rB &&& s.reg rA) false)

/-- R174. -/
def execXorq (rA rB : RegId) (s : State) : Host.Outcome State Fault Refusal :=
  .next (s.opq rB (s.reg rB ^^^ s.reg rA) false)

/-- The common effect of a reserved OPQ code (R175): the result and OF are free values (D6, log entry 3), drawn at the
counter's value; ZF and SF follow from the drawn result; all else is as for any OPQ. -/
def State.opqReserved (s : State) (rB : RegId) : State :=
  (s.opq rB (Config.opqRsvdValE s.draws) (Config.opqRsvdOf s.draws)).draw

/-- R175, `ifun` 4 to 7. -/
def execReservedOpq4to7 (_ifun : Nibble) (_rA rB : RegId) (s : State) : Host.Outcome State Fault Refusal :=
  .next (s.opqReserved rB)

/-- R175, `ifun` 8 to 15. -/
def execReservedOpq8to15 (_ifun : Nibble) (_rA rB : RegId) (s : State) : Host.Outcome State Fault Refusal :=
  .next (s.opqReserved rB)

end Sys2Proof.Machine
end

