-- ==== Sys2Proof/Machine/Stack.lean ====
section
/-! DEFINITION. pushq and popq (spec/45_pushq_popq.md). -/

namespace Sys2Proof.Machine

/-- R215: stores the old `x[rA]` at `x[rsp] - 8`; when the store fails, `rsp` is still decremented (R118, D7, log entry
8). `ifun` and `rB` are ignored (R88, R91). -/
def execPushq (_ifun : Nibble) (rA _rB : RegId) (s : State) : Host.Outcome State Fault Refusal :=
  .next (((s.store s.pushAddr (s.reg rA)).setReg .rsp s.pushAddr).pcUpdate (s.valP 2))

/-- R216: `rsp` is written first, `rA` second, so `popq %rsp` ends with the word read (R118); when the read fails, both
are still written, `rA` with 0 (D7, log entry 8). `ifun` and `rB` are ignored (R88, R91). -/
def execPopq (_ifun : Nibble) (rA _rB : RegId) (s : State) : Host.Outcome State Fault Refusal :=
  .next ((((s.load s.popAddr).setReg .rsp s.popNext).setReg rA (s.loadValue s.popAddr)).pcUpdate (s.valP 2))

end Sys2Proof.Machine
end

