-- ==== Sys2Proof/Machine/Dispatch.lean ====
section
/-! DEFINITION. From an instruction to its meaning: one arm per row of spec/opcode_table.json. -/

namespace Sys2Proof.Machine

def exec (i : Instr) (s : State) : Host.Outcome State Fault Refusal :=
  match i with
  | .halt ifun => Sys2Proof.Machine.execHalt ifun s
  | .nop ifun => Sys2Proof.Machine.execNop ifun s
  | .rrmovq rA rB => Sys2Proof.Machine.execRrmovq rA rB s
  | .cmovle rA rB => Sys2Proof.Machine.execCmovle rA rB s
  | .cmovl rA rB => Sys2Proof.Machine.execCmovl rA rB s
  | .cmove rA rB => Sys2Proof.Machine.execCmove rA rB s
  | .cmovne rA rB => Sys2Proof.Machine.execCmovne rA rB s
  | .cmovge rA rB => Sys2Proof.Machine.execCmovge rA rB s
  | .cmovg rA rB => Sys2Proof.Machine.execCmovg rA rB s
  | .reservedCmov7 rA rB => Sys2Proof.Machine.execReservedCmov7 rA rB s
  | .reservedCmov8to15 ifun rA rB => Sys2Proof.Machine.execReservedCmov8to15 ifun rA rB s
  | .irmovq ifun rA rB valC => Sys2Proof.Machine.execIrmovq ifun rA rB valC s
  | .rmmovq ifun rA rB valC => Sys2Proof.Machine.execRmmovq ifun rA rB valC s
  | .mrmovq ifun rA rB valC => Sys2Proof.Machine.execMrmovq ifun rA rB valC s
  | .addq rA rB => Sys2Proof.Machine.execAddq rA rB s
  | .subq rA rB => Sys2Proof.Machine.execSubq rA rB s
  | .andq rA rB => Sys2Proof.Machine.execAndq rA rB s
  | .xorq rA rB => Sys2Proof.Machine.execXorq rA rB s
  | .reservedOpq4to7 ifun rA rB => Sys2Proof.Machine.execReservedOpq4to7 ifun rA rB s
  | .reservedOpq8to15 ifun rA rB => Sys2Proof.Machine.execReservedOpq8to15 ifun rA rB s
  | .jmp dest => Sys2Proof.Machine.execJmp dest s
  | .jle dest => Sys2Proof.Machine.execJle dest s
  | .jl dest => Sys2Proof.Machine.execJl dest s
  | .je dest => Sys2Proof.Machine.execJe dest s
  | .jne dest => Sys2Proof.Machine.execJne dest s
  | .jge dest => Sys2Proof.Machine.execJge dest s
  | .jg dest => Sys2Proof.Machine.execJg dest s
  | .reservedJump7 dest => Sys2Proof.Machine.execReservedJump7 dest s
  | .reservedJump8to15 ifun dest => Sys2Proof.Machine.execReservedJump8to15 ifun dest s
  | .call ifun dest => Sys2Proof.Machine.execCall ifun dest s
  | .ret ifun => Sys2Proof.Machine.execRet ifun s
  | .pushq ifun rA rB => Sys2Proof.Machine.execPushq ifun rA rB s
  | .popq ifun rA rB => Sys2Proof.Machine.execPopq ifun rA rB s
  | .illegal byte0 => Sys2Proof.Machine.execIllegal byte0 s

end Sys2Proof.Machine
end

