-- ==== Sys2Proof/Machine/Fetch.lean ====
section
/-! DEFINITION. Fetch: the instruction at PC (spec/40_step_skeleton.md R111). -/

namespace Sys2Proof.Machine

/-- The bytes from PC up that Fetch may read: at most the longest instruction, and none outside memory (R55, R81). -/
def State.fetchWindow (s : State) : List Byte :=
  s.mem.readBytes s.pc.toNat (min Config.maxLength (Config.memSize - s.pc.toNat))

/-- The instruction at PC; an error when PC is outside memory (R111 F1) or the instruction's bytes run out of memory (F5,
F6). Every error is an ADR (R231 A1 to A3). An illegal first byte is an instruction of its own here, whatever follows it
(F3, R235). -/
def State.fetch (s : State) : Except DecodeError Instr :=
  if inRange1 s.pc then
    match decode s.fetchWindow with
    | .ok (i, _) => .ok i
    | .error e => .error e
  else .error .noOpcode

end Sys2Proof.Machine
end

