-- ==== Sys2Proof/Machine/Step.lean ====
section
/-! DEFINITION. One step of the machine (spec/40_step_skeleton.md R110, R122), and placing an instruction where the
next step fetches it. -/

namespace Sys2Proof.Machine

/-- One step: fetch, then the instruction's meaning. A Fetch ADR changes STAT alone (R111, R231 A1 to A3). The step is
total on states with STAT = AOK, an out-of-range PC included (R122, log entry 2); with another STAT no step is taken
(R121, D8, log entry 1). -/
def step (s : State) : Host.Outcome State Fault Refusal :=
  match s.stat with
  | .AOK =>
    match s.fetch with
    | .ok i => exec i s
    | .error _ => .next (s.raise .ADR)
  | .HLT | .ADR | .INS => .fault .stopped

/-- `s` with an instruction of spec/opcode_table.json stored at PC, as the loader would (R68: bytes beyond memory are
dropped), so that the next step of a machine that has not stopped runs it (log entry 11). -/
def State.withFetchWord (s : State) (nbits w : Nat) : State :=
  s.setMem (s.mem.loadBytes s.pc.toNat (tableBytes nbits w))

end Sys2Proof.Machine
end

