-- ==== Sys2Proof/Machine/Phases.lean ====
section
/-! DEFINITION. The six-phase step a second time, as the tables by class of spec/40_step_skeleton.md R111 to R119. The
spec says the two presentations agree (R124); the statements ask for a proof of it. `step` does not use this file. -/

namespace Sys2Proof.Machine

/-- The temporaries Fetch writes (R111). They do not outlive a step (R34). -/
structure Fetched where
  icode : IClass
  ifun : Nibble
  rA : RegId
  rB : RegId
  valC : Word
  valP : Word
  deriving DecidableEq, Repr

/-- F5: the register ids and the `valP` after them, none when the register byte lies outside memory (R111, D4). -/
def State.fetchRegs (s : State) (c : IClass) (valP : Word) : Option (RegId × RegId × Word) :=
  if c.hasRegByte then
    if inRange1 valP then
      let b1 := s.mem.readByte valP.toNat
      some (.ofNibble (highNibble b1), .ofNibble (lowNibble b1), valP + 1)
    else none
  else some (.NONE, .NONE, valP)

/-- F6: the constant and the `valP` after it, none when its bytes do not all lie in memory (R111). A class without a
constant has no `valC`; no later phase reads the 0 that stands for it here (log entry 21). -/
def State.fetchConst (s : State) (c : IClass) (valP : Word) : Option (Word × Word) :=
  if c.hasConst then
    match s.mem.read8 valP with
    | some valC => some (valC, valP + 8)
    | none => none
  else some (0, valP)

/-- Fetch, lines F1 to F6 in order: the temporaries, or the status that ends the step (R111). -/
def State.fetchPhase (s : State) : Except Stat Fetched :=
  if inRange1 s.pc then
    let b0 := s.mem.readByte s.pc.toNat
    match IClass.ofNibble (highNibble b0) with
    | none => .error .INS
    | some c =>
      match s.fetchRegs c (s.pc + 1) with
      | none => .error .ADR
      | some (rA, rB, valP) =>
        match s.fetchConst c valP with
        | none => .error .ADR
        | some (valC, valP) =>
          .ok { icode := c, ifun := lowNibble b0, rA := rA, rB := rB, valC := valC, valP := valP }
  else .error .ADR

/-- `srcA` (R112). -/
def Fetched.srcA (t : Fetched) : RegId :=
  match t.icode with
  | .RRMOVQ | .RMMOVQ | .OPQ | .PUSHQ => t.rA
  | .POPQ | .RET => .rsp
  | .HALT | .NOP | .JXX | .IRMOVQ | .MRMOVQ | .CALL => .NONE

/-- `srcB` (R112). -/
def Fetched.srcB (t : Fetched) : RegId :=
  match t.icode with
  | .OPQ | .RMMOVQ | .MRMOVQ => t.rB
  | .PUSHQ | .POPQ | .CALL | .RET => .rsp
  | .HALT | .NOP | .JXX | .IRMOVQ | .RRMOVQ => .NONE

/-- An OPQ with a reserved function code (R113). -/
def Fetched.reservedOpq (t : Fetched) : Bool :=
  decide (t.icode = .OPQ) && decide (4 ≤ t.ifun.toNat)

/-- `valE` (R113). HALT, NOP, JXX compute none; no later phase reads the 0 that stands for it here (U1, log entry 21). -/
def Fetched.valE (t : Fetched) (draws : Nat) (valA valB : Word) : Word :=
  match t.icode with
  | .OPQ =>
    match t.ifun.toNat with
    | 0 => valB + valA
    | 1 => valB - valA
    | 2 => valB &&& valA
    | 3 => valB ^^^ valA
    | _ => Config.opqRsvdValE draws
  | .IRMOVQ => t.valC
  | .RRMOVQ => valA
  | .RMMOVQ | .MRMOVQ => valB + t.valC
  | .PUSHQ | .CALL => valB - 8
  | .POPQ | .RET => valB + 8
  | .HALT | .NOP | .JXX => 0

/-- `OF` of an OPQ (R114). -/
def Fetched.overflow (t : Fetched) (draws : Nat) (valA valB valE : Word) : Bool :=
  match t.ifun.toNat with
  | 0 => addOverflow valA valB valE
  | 1 => subOverflow valA valB valE
  | 2 | 3 => false
  | _ => Config.opqRsvdOf draws

/-- The condition an `ifun` selects (R115). -/
def condOfIfun (ifun : Nibble) : Cond :=
  match ifun.toNat with
  | 0 => .always | 1 => .le | 2 => .l | 3 => .e | 4 => .ne | 5 => .ge | 6 => .g
  | _ => .never

/-- Execute's effect on the state: the flags of an OPQ (R114), HLT of a HALT (R116). -/
def Fetched.execute (t : Fetched) (valA valB valE : Word) (s : State) : State :=
  match t.icode with
  | .OPQ => s.setFlags (.ofResult valE (t.overflow s.draws valA valB valE))
  | .HALT => s.raise .HLT
  | .NOP | .RRMOVQ | .IRMOVQ | .RMMOVQ | .MRMOVQ | .JXX | .CALL | .RET | .PUSHQ | .POPQ => s

/-- The Memory phase's effect on the state (R117). -/
def Fetched.memory (t : Fetched) (valA valE : Word) (s : State) : State :=
  match t.icode with
  | .RMMOVQ | .PUSHQ => s.store valE valA
  | .CALL => s.store valE t.valP
  | .MRMOVQ => s.load valE
  | .POPQ | .RET => s.load valA
  | .HALT | .NOP | .RRMOVQ | .IRMOVQ | .OPQ | .JXX => s

/-- `valM` (R117). Only the classes that read memory have one. -/
def Fetched.valM (t : Fetched) (valA valE : Word) (s : State) : Word :=
  match t.icode with
  | .MRMOVQ => s.loadValue valE
  | .POPQ | .RET => s.loadValue valA
  | .HALT | .NOP | .RRMOVQ | .IRMOVQ | .RMMOVQ | .OPQ | .JXX | .CALL | .PUSHQ => 0

/-- `dstE` (R118). -/
def Fetched.dstE (t : Fetched) (cnd : Bool) : RegId :=
  match t.icode with
  | .OPQ | .IRMOVQ => t.rB
  | .RRMOVQ => if cnd then t.rB else .NONE
  | .PUSHQ | .POPQ | .CALL | .RET => .rsp
  | .HALT | .NOP | .RMMOVQ | .MRMOVQ | .JXX => .NONE

/-- `dstM` (R118). -/
def Fetched.dstM (t : Fetched) : RegId :=
  match t.icode with
  | .MRMOVQ | .POPQ => t.rA
  | .HALT | .NOP | .RRMOVQ | .IRMOVQ | .RMMOVQ | .OPQ | .JXX | .CALL | .RET | .PUSHQ => .NONE

/-- The target of the PC update (R119). -/
def Fetched.newPc (t : Fetched) (cnd : Bool) (valM : Word) : Word :=
  match t.icode with
  | .CALL => t.valC
  | .RET => valM
  | .JXX => if cnd then t.valC else t.valP
  | .HALT | .NOP | .RRMOVQ | .IRMOVQ | .RMMOVQ | .MRMOVQ | .OPQ | .PUSHQ | .POPQ => t.valP

/-- Decode, Execute, Memory, Write-back and PC update, in order (R110, R112 to R119). -/
def Fetched.laterPhases (t : Fetched) (s : State) : State :=
  let valA := s.reg t.srcA
  let valB := s.reg t.srcB
  let valE := t.valE s.draws valA valB
  let cnd := condHolds (condOfIfun t.ifun) s.cc
  let executed := t.execute valA valB valE s
  let valM := t.valM valA valE executed
  let accessed := t.memory valA valE executed
  let written := (accessed.setReg (t.dstE cnd) valE).setReg t.dstM valM
  let updated := written.pcUpdate (t.newPc cnd valM)
  if t.reservedOpq then updated.draw else updated

/-- The six-phase step of R110, with the stop of `step` when STAT is not AOK (R121). -/
def phaseStep (s : State) : Host.Outcome State Fault Refusal :=
  match s.stat with
  | .AOK =>
    match s.fetchPhase with
    | .ok t => .next (t.laterPhases s)
    | .error x => .next (s.raise x)
  | .HLT | .ADR | .INS => .fault .stopped

end Sys2Proof.Machine
end

