-- ==== Sys2Proof/Machine/Run.lean ====
section
/-! DEFINITION. A run as the host sees it: loading, the run loop and the records it emits
(spec/40_step_skeleton.md R120, R121; spec/70_reset_and_hazards.md R262 to R271). -/

namespace Sys2Proof.Machine

/-- The loader: writes the data lines of an image, each an address and its bytes, in order (R68, R263). The parsing of
image text is out of the core (R5, log entry 12). -/
def Memory.loadImage (m : Memory) : List (Nat × List Byte) → Memory
  | [] => m
  | (a, bs) :: lines => (m.loadBytes a bs).loadImage lines

/-- The state in which a run of an image starts: reset, then load, which changes memory alone (R262). -/
def State.boot (image : List (Nat × List Byte)) : State :=
  State.reset.setMem (State.reset.mem.loadImage image)

/-- The body of the run loop: a step, its record (the state after it), and on until the machine has stopped, for at most
`fuel` steps (R120, R121). -/
def loop : Nat → State → List State
  | 0, _ => []
  | fuel + 1, s =>
    match step s with
    | .next t => t :: (if t.stopped then [] else loop fuel t)
    | .fault _ | .refused _ => []

/-- The run loop: `STAT := AOK`, then the loop; the list of states the host observes, at most `fuel` of them (R120,
R268, D19). -/
def run (fuel : Nat) (s : State) : List State := loop fuel (s.raise .AOK)

/-- The numeric code of a status (R30). -/
def Stat.code : Stat → Nat
  | .AOK => 1 | .HLT => 2 | .ADR => 3 | .INS => 4

/-- The content of a trace record (R269); its rendering to text is out of the core (R5, log entry 13). -/
structure Record where
  pc : Nat
  stat : Nat
  of : Nat
  sf : Nat
  zf : Nat
  reg : List (String × Int)
  mem : List (Nat × Int)
  deriving DecidableEq, Repr

/-- The names of the fifteen registers, in id order (R22). -/
def registerNames : List (RegId × String) :=
  [(.rax, "rax"), (.rcx, "rcx"), (.rdx, "rdx"), (.rbx, "rbx"), (.rsp, "rsp"), (.rbp, "rbp"), (.rsi, "rsi"),
    (.rdi, "rdi"), (.r8, "r8"), (.r9, "r9"), (.r10, "r10"), (.r11, "r11"), (.r12, "r12"), (.r13, "r13"), (.r14, "r14")]

/-- The aligned 8-byte words of memory that are not zero, each with its address, as signed numbers (R269). The words that
hold a listed byte are exactly those, since a listed byte is not 0. -/
def Memory.words (m : Memory) : List (Nat × Int) :=
  ((m.map fun c => c.1 / 8 * 8).dedup).map fun a => (a, (le64 (m.readBytes a 8)).toInt)

/-- What a record shows of a state (R269). PC is shown as its unsigned reading (R12, log entry 13). -/
def State.record (s : State) : Record where
  pc := s.pc.toNat
  stat := s.stat.code
  of := s.cc.of.toNat
  sf := s.cc.sf.toNat
  zf := s.cc.zf.toNat
  reg := registerNames.map fun (r, name) => (name, (s.reg r).toInt)
  mem := s.mem.words

/-- How a run ends, from its last state (R271). -/
inductive Ending where
  | halted
  | badAddress
  | illegalInstruction
  /-- STAT is AOK and PC is outside memory (R121 kind b). -/
  | leftMemory
  deriving DecidableEq, Repr

/-- The ending a state shows, none while the machine has not stopped (R271). -/
def State.ending (s : State) : Option Ending :=
  match s.stat with
  | .HLT => some .halted
  | .ADR => some .badAddress
  | .INS => some .illegalInstruction
  | .AOK => if inRange1 s.pc then none else some .leftMemory

end Sys2Proof.Machine
end

