-- ==== Sys2Proof/Safety.lean ====
section
/-! DEFINITION. The terms the statements use: the invariant of the machine, what a step leaves unchanged, what an
instruction accesses, and safe runs. -/

namespace Sys2Proof.Machine

/-- The invariant of the machine: memory is in canonical form (log entry 10), and no result is both zero and negative
(spec/95_test_vectors.md section 2.2: rows with ZF = 1 and SF = 1 cannot be produced). -/
def State.Inv (s : State) : Prop := s.mem.wf = true ∧ ¬(s.cc.zf = true ∧ s.cc.sf = true)

/-- STAT is AOK: a step may be taken (R121 a). -/
def State.running (s : State) : Prop := s.stat = .AOK

/-- PC lies inside memory (R111 F1). -/
def State.pcInside (s : State) : Prop := s.pc.toNat < 0x10000

/-! ### Frames -/

/-- Every register but those listed reads the same in `t` as in `s`. -/
def SameRegsExcept (changed : List RegId) (s t : State) : Prop := ∀ r, r ∉ changed → t.reg r = s.reg r

/-- `r` holds `v` in `t` (0 when `r` is NONE, which drops the write, R24), every other register what it held in `s`. -/
def WritesReg (s t : State) (r : RegId) (v : Word) : Prop :=
  t.reg r = (if r = .NONE then 0 else v) ∧ SameRegsExcept [r] s t

/-- Every byte of memory reads the same in `t` as in `s`. -/
def SameMem (s t : State) : Prop := ∀ a, t.mem.readByte a = s.mem.readByte a

/-- Every byte of memory but the eight from `base` up reads the same in `t` as in `s`. -/
def SameMemExcept8 (base : Word) (s t : State) : Prop :=
  ∀ a, ¬(base.toNat ≤ a ∧ a < base.toNat + 8) → t.mem.readByte a = s.mem.readByte a

/-- The eight bytes from `base` up hold `v`, least significant first: byte `k` is bits `8k+7` to `8k` (R54, R56). -/
def Holds8 (s : State) (base v : Word) : Prop :=
  ∀ k, k < 8 → s.mem.readByte (base.toNat + k) = v.extractLsb' (8 * k) 8

/-- The step ended with STAT = AOK and the given PC. -/
def AdvancesTo (t : State) (pc : Word) : Prop := t.stat = .AOK ∧ t.pc = pc

/-- The step ended with STAT = ADR and PC where it was (R236). -/
def StopsWithAdr (s t : State) : Prop := t.stat = .ADR ∧ t.pc = s.pc

/-! ### Encodings -/

/-- The register-specifier byte: `rA` high, `rB` low (R82). -/
def regByte (rA rB : RegId) : Byte := nibbles rA.toNibble rB.toNibble

/-- The instruction and these bytes stand for each other, whatever bytes follow. -/
def EncodedAs (i : Instr) (bs : List Byte) : Prop := encode i = bs ∧ ∀ rest, decode (bs ++ rest) = .ok (i, rest)

/-- The bytes of an instruction lie at PC, all of them inside memory. -/
def State.at (s : State) (i : Instr) : Prop :=
  s.pc.toNat + (encode i).length ≤ 0x10000 ∧ s.mem.readBytes s.pc.toNat (encode i).length = encode i

/-- The first byte of the instruction at PC. -/
def State.opcode (s : State) : Byte := s.mem.readByte s.pc.toNat

/-- An instruction with this first byte, fetched at `limit` or above, does not fit in memory: the step sets STAT to ADR
and changes nothing else (R124). -/
def FetchAdrFrom (b0 : Byte) (limit : Nat) : Prop :=
  ∀ s : State, s.running → limit ≤ s.pc.toNat → s.pcInside → s.opcode = b0 → step s = .next (s.raise .ADR)

/-! ### What an instruction accesses -/

/-- The address of the one data access of an instruction (R117). -/
def dataAddr (i : Instr) (s : State) : Option Word :=
  match i with
  | .rmmovq _ _ rB d | .mrmovq _ _ rB d => some (s.dispAddr rB d)
  | .call _ _ | .pushq _ _ _ => some s.pushAddr
  | .ret _ | .popq _ _ _ => some s.popAddr
  | .halt _ | .nop _ | .rrmovq _ _ | .cmovle _ _ | .cmovl _ _ | .cmove _ _ | .cmovne _ _ | .cmovge _ _
   | .cmovg _ _ | .reservedCmov7 _ _ | .reservedCmov8to15 _ _ _ | .irmovq _ _ _ _ | .addq _ _ | .subq _ _
   | .andq _ _ | .xorq _ _ | .reservedOpq4to7 _ _ _ | .reservedOpq8to15 _ _ _ | .jmp _ | .jle _ | .jl _
   | .je _ | .jne _ | .jge _ | .jg _ | .reservedJump7 _ | .reservedJump8to15 _ _ | .illegal _ => none

/-- The address an instruction stores to (R117). -/
def storeAddr (i : Instr) (s : State) : Option Word :=
  match i with
  | .rmmovq _ _ rB d => some (s.dispAddr rB d)
  | .call _ _ | .pushq _ _ _ => some s.pushAddr
  | .halt _ | .nop _ | .rrmovq _ _ | .cmovle _ _ | .cmovl _ _ | .cmove _ _ | .cmovne _ _ | .cmovge _ _
   | .cmovg _ _ | .reservedCmov7 _ _ | .reservedCmov8to15 _ _ _ | .irmovq _ _ _ _ | .mrmovq _ _ _ _
   | .addq _ _ | .subq _ _ | .andq _ _ | .xorq _ _ | .reservedOpq4to7 _ _ _ | .reservedOpq8to15 _ _ _ | .jmp _
   | .jle _ | .jl _ | .je _ | .jne _ | .jge _ | .jg _ | .reservedJump7 _ | .reservedJump8to15 _ _ | .ret _
   | .popq _ _ _ | .illegal _ => none

/-- The registers an instruction may write (R25). -/
def writtenRegs (i : Instr) : List RegId :=
  match i with
  | .rrmovq _ rB | .cmovle _ rB | .cmovl _ rB | .cmove _ rB | .cmovne _ rB | .cmovge _ rB | .cmovg _ rB => [rB]
  | .irmovq _ _ rB _ => [rB]
  | .mrmovq _ rA _ _ => [rA]
  | .addq _ rB | .subq _ rB | .andq _ rB | .xorq _ rB => [rB]
  | .reservedOpq4to7 _ _ rB | .reservedOpq8to15 _ _ rB => [rB]
  | .pushq _ _ _ | .call _ _ | .ret _ => [.rsp]
  | .popq _ rA _ => [.rsp, rA]
  | .halt _ | .nop _ | .reservedCmov7 _ _ | .reservedCmov8to15 _ _ _ | .rmmovq _ _ _ _ | .jmp _ | .jle _
   | .jl _ | .je _ | .jne _ | .jge _ | .jg _ | .reservedJump7 _ | .reservedJump8to15 _ _ | .illegal _ => []

/-! ### Safe runs -/

/-- No record of a run shows ADR or INS, and the run does not leave memory: it ends, if it ends, with a `halt` (R271). -/
def SafeRun (fuel : Nat) (s : State) : Prop :=
  ∀ t, t ∈ run fuel s → t.ending = none ∨ t.ending = some .halted

end Sys2Proof.Machine
end

