-- ==== Sys2Proof/Certificates/Slice0/Obligations.lean ====
section
/-! DEFINITION. What the model claims, as statements for the provers. The terms are those of Safety.lean. -/

open Sys2Proof Sys2Proof.Machine

/-! ## Encoding -/

/-- Every encoding decodes back to its instruction, with every operand, whatever bytes follow (30_encoding.md). -/
def Obligations.DecodeOfEncode : Prop :=
  ∀ (i : Instr) (rest : List Byte), i.wf = true → decode (encode i ++ rest) = .ok (i, rest)

/-- What the decoder reads is a well-formed instruction whose encoding is exactly the bytes it took (30_encoding.md). -/
def Obligations.EncodeOfDecode : Prop :=
  ∀ (bs : List Byte) (i : Instr) (rest : List Byte),
    decode bs = .ok (i, rest) → i.wf = true ∧ bs = encode i ++ rest

/-- The length of an instruction is a function of its `icode`, and decoding succeeds exactly when that many bytes are
there (30_encoding.md, the table of R84). -/
def Obligations.LengthFromIcodeAlone : Prop :=
  ∀ (b0 : Byte) (rest : List Byte),
    let len := match (highNibble b0).toNat with
      | 0x0 | 0x1 | 0x9 => 1
      | 0x2 | 0x6 | 0xA | 0xB => 2
      | 0x7 | 0x8 => 9
      | 0x3 | 0x4 | 0x5 => 10
      | _ => 1
    ((∃ i tail, decode (b0 :: rest) = .ok (i, tail)) ↔ len ≤ (b0 :: rest).length) ∧
    (∀ i tail, decode (b0 :: rest) = .ok (i, tail) → (encode i).length = len)

/-- The bytes the source gives decode to the instructions it names (R97). -/
def Obligations.SourceBytesDecode : Prop :=
  decode [0x30, 0xf2, 0x0a, 0, 0, 0, 0, 0, 0, 0] = .ok (.irmovq 0 .NONE .rdx 10, []) ∧
  decode [0x30, 0xf0, 0x03, 0, 0, 0, 0, 0, 0, 0] = .ok (.irmovq 0 .NONE .rax 3, []) ∧
  decode [0x10] = .ok (.nop 0, []) ∧
  decode [0x60, 0x20] = .ok (.addq .rdx .rax, []) ∧
  decode [0x00] = .ok (.halt 0, [])

/-- For the nine classes that do not use `ifun`, every value of it decodes to the same instruction and behaves as 0 does
(R88). -/
def Obligations.UnusedIfunIsIgnored : Prop :=
  ∀ (n : Nibble) (rA rB : RegId) (v : Word) (s : State),
    (EncodedAs (.halt n) [nibbles 0x0 n] ∧ exec (.halt n) s = exec (.halt 0) s) ∧
    (EncodedAs (.nop n) [nibbles 0x1 n] ∧ exec (.nop n) s = exec (.nop 0) s) ∧
    (EncodedAs (.irmovq n rA rB v) (nibbles 0x3 n :: regByte rA rB :: wordBytes v) ∧
      exec (.irmovq n rA rB v) s = exec (.irmovq 0 rA rB v) s) ∧
    (EncodedAs (.rmmovq n rA rB v) (nibbles 0x4 n :: regByte rA rB :: wordBytes v) ∧
      exec (.rmmovq n rA rB v) s = exec (.rmmovq 0 rA rB v) s) ∧
    (EncodedAs (.mrmovq n rA rB v) (nibbles 0x5 n :: regByte rA rB :: wordBytes v) ∧
      exec (.mrmovq n rA rB v) s = exec (.mrmovq 0 rA rB v) s) ∧
    (EncodedAs (.call n v) (nibbles 0x8 n :: wordBytes v) ∧ exec (.call n v) s = exec (.call 0 v) s) ∧
    (EncodedAs (.ret n) [nibbles 0x9 n] ∧ exec (.ret n) s = exec (.ret 0) s) ∧
    (EncodedAs (.pushq n rA rB) [nibbles 0xA n, regByte rA rB] ∧
      exec (.pushq n rA rB) s = exec (.pushq 0 rA rB) s) ∧
    (EncodedAs (.popq n rA rB) [nibbles 0xB n, regByte rA rB] ∧ exec (.popq n rA rB) s = exec (.popq 0 rA rB) s)

/-! ## Registers, memory, reset -/

/-- NONE reads 0 and drops a write; any other register holds what was written, and no other register changes (R24). -/
def Obligations.RegisterFileReadsAndWrites : Prop :=
  ∀ (s : State) (v : Word),
    s.reg .NONE = 0 ∧ s.setReg .NONE v = s ∧
    ∀ r, r ≠ .NONE → (s.setReg r v).reg r = v ∧ SameRegsExcept [r] s (s.setReg r v)

/-- The 8-byte range check in its three forms; the sum does not wrap (R52). -/
def Obligations.EightByteRangeCheck : Prop :=
  (∀ a : Word,
    (inRange8 a = true ↔ 0 ≤ a.toInt ∧ a.toInt + 8 ≤ 0x10000) ∧
    (inRange8 a = true ↔ 0 ≤ a.toInt ∧ a.toInt ≤ 0xFFF8) ∧
    (inRange8 a = true ↔ a.toNat ≤ 0xFFF8)) ∧
  inRange8 0x7FFFFFFFFFFFFFFC = false

/-- The 8-byte read: in range, the sum of the bytes each times its power of 256; out of range it fails, delivers 0 and
raises ADR; it never changes memory (R53). That an address near 2^63 is out of range, and so ends with ADR, is the spec's
decision D5 (log entry 7). -/
def Obligations.EightByteRead : Prop :=
  ∀ (s : State) (a : Word),
    (a.toNat ≤ 0xFFF8 →
      s.load a = s ∧ ∃ v, s.mem.read8 a = some v ∧ s.loadValue a = v ∧
        v.toNat = ((List.range 8).map fun i => (s.mem.readByte (a.toNat + i)).toNat * 2 ^ (8 * i)).sum) ∧
    (0xFFF8 < a.toNat → s.mem.read8 a = none ∧ s.loadValue a = 0 ∧ s.load a = s.raise .ADR)

/-- The 8-byte write: in range, byte `i` of the value goes to `a + i` and no other byte changes; out of range it fails, no
byte is written and ADR is raised (R54). That an address near 2^63 is out of range, and so ends with ADR, is the spec's
decision D5 (log entry 7). The canonical form is needed to read a byte back. -/
def Obligations.EightByteWrite : Prop :=
  ∀ (s : State) (a v : Word), s.Inv →
    (a.toNat ≤ 0xFFF8 →
      (∃ m, s.mem.write8 a v = some m ∧ s.store a v = s.setMem m) ∧
      Holds8 (s.store a v) a v ∧ SameMemExcept8 a s (s.store a v)) ∧
    (0xFFF8 < a.toNat → s.mem.write8 a v = none ∧ s.store a v = s.raise .ADR)

/-- A loader byte goes to its address, and is dropped when the address lies outside memory (R68). A line's byte `k` goes to
`a + k`, and no other byte changes (R263). The memory a run starts with is that of reset with the lines of its image loaded
one after another, and nothing but memory differs from reset (R262); that later lines overwrite earlier ones is PRESUMED
(log entry 12). -/
def Obligations.LoaderWritesBytesAndDropsOutside : Prop :=
  (∀ (m : Memory) (a c : Nat) (b : Byte), m.wf = true →
    (m.loadByte a b).wf = true ∧
    (m.loadByte a b).readByte c = if c = a ∧ a < 0x10000 then b else m.readByte c) ∧
  (∀ (m : Memory) (a : Nat) (bs : List Byte), m.wf = true →
    (m.loadBytes a bs).wf = true ∧
    (∀ k b, bs[k]? = some b → a + k < 0x10000 → (m.loadBytes a bs).readByte (a + k) = b) ∧
    (∀ c, ¬(a ≤ c ∧ c < a + bs.length ∧ c < 0x10000) → (m.loadBytes a bs).readByte c = m.readByte c)) ∧
  (State.boot [] = State.reset ∧
    ∀ (image : List (Nat × List Byte)) (a : Nat) (bs : List Byte),
      (State.boot (image ++ [(a, bs)])).mem = (State.boot image).mem.loadBytes a bs) ∧
  (∀ image : List (Nat × List Byte),
    (State.boot image).mem.wf = true ∧ (State.boot image).setMem State.reset.mem = State.reset)

/-- Reset: PC, every register and every byte of memory 0, ZF 1, SF and OF 0, STAT AOK (R260). -/
def Obligations.ResetValues : Prop :=
  State.reset.pc = 0 ∧ (∀ r, State.reset.reg r = 0) ∧
  State.reset.cc.zf = true ∧ State.reset.cc.sf = false ∧ State.reset.cc.of = false ∧
  State.reset.stat = .AOK ∧ ∀ a, State.reset.mem.readByte a = 0

/-! ## The step -/

/-- When the bytes of a well-formed instruction lie at PC, the step is that instruction's meaning. -/
def Obligations.StepRunsTheEncodedInstruction : Prop :=
  ∀ (s : State) (i : Instr), s.running → i.wf = true → s.at i → step s = exec i s

/-- The step is total on states with STAT = AOK; with PC outside memory it gives STAT = ADR and nothing else; no run from
reset gets there (R122). -/
def Obligations.StepIsTotalWhileRunning : Prop :=
  (∀ s : State, s.running → ∃ t, step s = .next t) ∧
  (∀ s : State, s.running → ¬ s.pcInside → step s = .next (s.raise .ADR)) ∧
  (∀ (fuel : Nat) (image : List (Nat × List Byte)) (t : State),
    t ∈ run fuel (State.boot image) → t.stat = .ADR → t.pcInside)

/-- When STAT is not AOK no step is taken (40_step_skeleton.md, R121 kind a; `stopped` is the model's name for it, log
entry 1). -/
def Obligations.NoStepOnceStatIsNotAok : Prop :=
  ∀ s : State, ¬ s.running → step s = .fault .stopped

/-- Fetch raises ADR exactly when the instruction's bytes do not fit in memory, by format, and then only STAT changes
(40_step_skeleton.md, the table of R124). -/
def Obligations.FetchAdrByFormat : Prop :=
  ∀ s : State, s.running → s.pcInside → ∀ c, IClass.ofNibble (highNibble s.opcode) = some c →
    let limit := match c with
      | .HALT | .NOP | .RET => 0x10000
      | .RRMOVQ | .OPQ | .PUSHQ | .POPQ => 0xFFFF
      | .JXX | .CALL => 0xFFF8
      | .IRMOVQ | .RMMOVQ | .MRMOVQ => 0xFFF7
    (limit ≤ s.pc.toNat → step s = .next (s.raise .ADR)) ∧
    (s.pc.toNat < limit → ∃ i, i.wf = true ∧ s.at i ∧ step s = exec i s)

/-- ADR is set in the situations A1 to A5 of R231 and in no other: PC outside memory, an instruction that does not fit, a
data access out of range (60_exceptions.md). -/
def Obligations.AdrExactlyInItsSituations : Prop :=
  ∀ s t : State, step s = .next t →
    (t.stat = .ADR ↔
      ¬ s.pcInside ∨
      (s.pcInside ∧ ∃ c, IClass.ofNibble (highNibble s.opcode) = some c ∧ 0x10000 < s.pc.toNat + c.length) ∨
      (∃ i a, i.wf = true ∧ s.at i ∧ dataAddr i s = some a ∧ 0xFFF8 < a.toNat))

/-- INS is set exactly when the first byte is 0xC0 or above, whatever follows it, and then only STAT changes (R89,
R232). -/
def Obligations.InsExactlyOnIllegalOpcode : Prop :=
  (∀ b : Byte, 0xC0 ≤ b.toNat → EncodedAs (.illegal b) [b]) ∧
  (∀ (b : Byte) (s : State), exec (.illegal b) s = .next (s.raise .INS)) ∧
  (∀ s : State, s.running → s.pcInside → 0xC0 ≤ s.opcode.toNat → step s = .next (s.raise .INS)) ∧
  (∀ s t : State, step s = .next t → t.stat = .INS → s.pcInside ∧ 0xC0 ≤ s.opcode.toNat)

/-- HLT is set exactly when the first byte is 0x00 to 0x0F, and then only STAT changes (R233). -/
def Obligations.HltExactlyOnHalt : Prop :=
  ∀ s t : State, step s = .next t →
    (t.stat = .HLT ↔ s.pcInside ∧ s.opcode.toNat ≤ 0x0F) ∧ (t.stat = .HLT → t = s.raise .HLT)

/-- A step that leaves AOK keeps PC, the flags and memory; unless it is a Memory-phase ADR, it changes STAT alone
(60_exceptions.md, R236, R237). -/
def Obligations.FaultsArePreciseInPcFlagsAndMemory : Prop :=
  ∀ s t : State, step s = .next t → t.stat ≠ .AOK →
    t.pc = s.pc ∧ t.cc = s.cc ∧ t.mem = s.mem ∧
    (t = s.raise t.stat ∨
      (t.stat = .ADR ∧ ∃ i, i.wf = true ∧ s.at i ∧ (dataAddr i s).isSome ∧ SameRegsExcept (writtenRegs i) s t))

/-- The step by the tables of the six phases and the step by decoding and one meaning per instruction are the same
function (40_step_skeleton.md, R124). -/
def Obligations.PhaseTablesAgreeWithInstructions : Prop :=
  ∀ s : State, phaseStep s = step s

/-! ## Rules about every instruction -/

/-- Every step keeps the invariant: memory stays canonical, ZF and SF are never both set. -/
def Obligations.EveryStepKeepsTheInvariant : Prop :=
  ∀ s t : State, s.Inv → step s = .next t → t.Inv

/-- The invariant holds at reset, and in every state a run from a loaded image starts in. -/
def Obligations.ResetMeetsTheInvariant : Prop :=
  State.reset.Inv ∧ ∀ image : List (Nat × List Byte), (State.boot image).Inv

/-- A step whose instruction is not of class OPQ leaves all three flags unchanged (10_state.md, R29). -/
def Obligations.FlagsChangeOnlyByOpq : Prop :=
  ∀ s t : State, step s = .next t → IClass.ofNibble (highNibble s.opcode) ≠ some .OPQ → t.cc = s.cc

/-- A step changes at most the eight bytes its instruction stores to, all inside memory, and none when it stores nothing;
nothing but rmmovq, pushq and call stores (20_memory.md, R58; R117). -/
def Obligations.MemoryChangesOnlyWhereStored : Prop :=
  (∀ (i : Instr) (s t : State), exec i s = .next t →
    match storeAddr i s with
    | some a => SameMemExcept8 a s t ∧ (0xFFF8 < a.toNat → SameMem s t)
    | none => SameMem s t) ∧
  (∀ s t : State, step s = .next t →
    IClass.ofNibble (highNibble s.opcode) ∉ [some .RMMOVQ, some .PUSHQ, some .CALL] → SameMem s t)

/-- An instruction writes no register but those R25 lists for it. -/
def Obligations.RegistersWrittenByInstruction : Prop :=
  ∀ (i : Instr) (s t : State), exec i s = .next t → SameRegsExcept (writtenRegs i) s t

/-- How each instruction moves PC: by its length, to its target, to the word popped; PC stays when the step ends with
STAT not AOK (R27). -/
def Obligations.NewPcOfEveryInstruction : Prop :=
  ∀ (i : Instr) (s t : State), i.wf = true → exec i s = .next t →
    t.pc = if t.stat = .AOK then
      (match i with
      | .nop _ => s.pc + 1
      | .rrmovq _ _ | .cmovle _ _ | .cmovl _ _ | .cmove _ _ | .cmovne _ _ | .cmovge _ _ | .cmovg _ _ => s.pc + 2
      | .reservedCmov7 _ _ | .reservedCmov8to15 _ _ _ => s.pc + 2
      | .addq _ _ | .subq _ _ | .andq _ _ | .xorq _ _ => s.pc + 2
      | .reservedOpq4to7 _ _ _ | .reservedOpq8to15 _ _ _ => s.pc + 2
      | .pushq _ _ _ | .popq _ _ _ => s.pc + 2
      | .irmovq _ _ _ _ | .rmmovq _ _ _ _ | .mrmovq _ _ _ _ => s.pc + 10
      | .jmp dest => dest
      | .jle dest => if (s.cc.sf ^^ s.cc.of) || s.cc.zf then dest else s.pc + 9
      | .jl dest => if s.cc.sf ^^ s.cc.of then dest else s.pc + 9
      | .je dest => if s.cc.zf then dest else s.pc + 9
      | .jne dest => if !s.cc.zf then dest else s.pc + 9
      | .jge dest => if !(s.cc.sf ^^ s.cc.of) then dest else s.pc + 9
      | .jg dest => if !(s.cc.sf ^^ s.cc.of) && !s.cc.zf then dest else s.pc + 9
      | .reservedJump7 _ | .reservedJump8to15 _ _ => s.pc + 9
      | .call _ dest => dest
      | .ret _ => le64 (s.mem.readBytes (s.reg .rsp).toNat 8)
      | .halt _ | .illegal _ => s.pc)
    else s.pc

/-! ## halt and nop -/

/-- `halt` sets STAT to HLT and changes nothing else; the machine has stopped (R140). -/
def Obligations.HaltSetsHlt : Prop :=
  ∀ (n : Nibble) (s : State),
    EncodedAs (.halt n) [nibbles 0x0 n] ∧
    ∃ t, exec (.halt n) s = .next t ∧
      t.stat = .HLT ∧ t.pc = s.pc ∧ t.cc = s.cc ∧ SameRegsExcept [] s t ∧ SameMem s t ∧ t.stopped = true

/-- `nop` moves PC on by 1 and changes nothing else (R141). -/
def Obligations.NopOnlyAdvances : Prop :=
  ∀ (n : Nibble) (s : State), s.running →
    EncodedAs (.nop n) [nibbles 0x1 n] ∧
    ∃ t, exec (.nop n) s = .next t ∧
      AdvancesTo t (s.pc + 1) ∧ t.cc = s.cc ∧ SameRegsExcept [] s t ∧ SameMem s t

/-! ## Moves -/

/-- `rrmovq` and the six conditional moves copy `rA` to `rB` when their condition holds of the flags, and write no
register otherwise; flags and memory stay (R150 to R156). The first bytes rest on D3 (log entry 5), the Fetch ADR at 0xFFFF on
D4 (log entry 6). -/
def Obligations.MovesWhenConditionHolds : Prop :=
  let moves (b0 : Byte) (mk : RegId → RegId → Instr) (c : Flags → Bool) : Prop :=
    FetchAdrFrom b0 0xFFFF ∧
    ∀ rA rB, EncodedAs (mk rA rB) [b0, regByte rA rB] ∧
      ∀ s : State, s.running → ∃ t, exec (mk rA rB) s = .next t ∧
        WritesReg s t rB (if c s.cc then s.reg rA else s.reg rB) ∧
        AdvancesTo t (s.pc + 2) ∧ t.cc = s.cc ∧ SameMem s t
  moves 0x20 .rrmovq (fun _ => true) ∧
  moves 0x21 .cmovle (fun f => (f.sf ^^ f.of) || f.zf) ∧
  moves 0x22 .cmovl (fun f => f.sf ^^ f.of) ∧
  moves 0x23 .cmove (fun f => f.zf) ∧
  moves 0x24 .cmovne (fun f => !f.zf) ∧
  moves 0x25 .cmovge (fun f => !(f.sf ^^ f.of)) ∧
  moves 0x26 .cmovg (fun f => !(f.sf ^^ f.of) && !f.zf)

/-- A reserved conditional move (`ifun` 7 to 15) moves PC on by 2 and changes nothing else (R157). The first bytes
rest on D3 (log entry 5). -/
def Obligations.ReservedMoveNeverMoves : Prop :=
  ∀ rA rB,
    EncodedAs (.reservedCmov7 rA rB) [0x27, regByte rA rB] ∧
    (∀ ifun : Nibble, 8 ≤ ifun.toNat → EncodedAs (.reservedCmov8to15 ifun rA rB) [nibbles 0x2 ifun, regByte rA rB]) ∧
    ∀ (ifun : Nibble) (s : State), s.running →
      ∃ t, exec (.reservedCmov7 rA rB) s = .next t ∧ exec (.reservedCmov8to15 ifun rA rB) s = .next t ∧
        AdvancesTo t (s.pc + 2) ∧ t.cc = s.cc ∧ SameRegsExcept [] s t ∧ SameMem s t

/-- `irmovq` writes the constant to `rB`, ignoring `ifun` and `rA` (R158). -/
def Obligations.IrmovqWritesTheConstant : Prop :=
  ∀ (n : Nibble) (rA rB : RegId) (v : Word),
    EncodedAs (.irmovq n rA rB v) (nibbles 0x3 n :: regByte rA rB :: wordBytes v) ∧
    FetchAdrFrom (nibbles 0x3 n) 0xFFF7 ∧
    ∀ s : State, s.running → ∃ t, exec (.irmovq n rA rB v) s = .next t ∧
      WritesReg s t rB v ∧ AdvancesTo t (s.pc + 10) ∧ t.cc = s.cc ∧ SameMem s t

/-- `rmmovq` stores `rA` little-endian at `rB + D` when the address is at most 0xFFF8, and nothing else changes but PC; above
that only STAT changes, to ADR (R159). The canonical form is needed to read the bytes back. The first bytes rest on D3 (log
entry 5), the range on D5 (log entry 7). -/
def Obligations.RmmovqStores : Prop :=
  ∀ (n : Nibble) (rA rB : RegId) (d : Word),
    EncodedAs (.rmmovq n rA rB d) (nibbles 0x4 n :: regByte rA rB :: wordBytes d) ∧
    FetchAdrFrom (nibbles 0x4 n) 0xFFF7 ∧
    ∀ s : State, s.running → s.Inv →
      ((s.reg rB + d).toNat ≤ 0xFFF8 → ∃ t, exec (.rmmovq n rA rB d) s = .next t ∧
        Holds8 t (s.reg rB + d) (s.reg rA) ∧ SameMemExcept8 (s.reg rB + d) s t ∧
        AdvancesTo t (s.pc + 10) ∧ t.cc = s.cc ∧ SameRegsExcept [] s t) ∧
      (0xFFF8 < (s.reg rB + d).toNat → exec (.rmmovq n rA rB d) s = .next (s.raise .ADR))

/-- `mrmovq` loads into `rA` the little-endian word at `rB + D` when the address is at most 0xFFF8; above that STAT becomes
ADR, PC stays and `rA` is still written, with 0 (R160). The first bytes rest on D3
(log entry 5), the range on D5 (log entry 7), the registers after a Memory-phase ADR on D7 (log entry 8). -/
def Obligations.MrmovqLoads : Prop :=
  ∀ (n : Nibble) (rA rB : RegId) (d : Word),
    EncodedAs (.mrmovq n rA rB d) (nibbles 0x5 n :: regByte rA rB :: wordBytes d) ∧
    FetchAdrFrom (nibbles 0x5 n) 0xFFF7 ∧
    ∀ s : State, s.running →
      ((s.reg rB + d).toNat ≤ 0xFFF8 → ∃ t v, exec (.mrmovq n rA rB d) s = .next t ∧
        Holds8 s (s.reg rB + d) v ∧ WritesReg s t rA v ∧
        AdvancesTo t (s.pc + 10) ∧ t.cc = s.cc ∧ SameMem s t) ∧
      (0xFFF8 < (s.reg rB + d).toNat → ∃ t, exec (.mrmovq n rA rB d) s = .next t ∧
        WritesReg s t rA 0 ∧ StopsWithAdr s t ∧ t.cc = s.cc ∧ SameMem s t)

/-- What `rmmovq` stores, `mrmovq` from the same address recovers, aligned or not (42_moves.md, property 7). -/
def Obligations.LoadRecoversWhatWasStored : Prop :=
  ∀ (n k : Nibble) (rA rB rC rD : RegId) (d d' : Word) (s t u : State),
    s.running → s.Inv → (s.reg rB + d).toNat ≤ 0xFFF8 →
    exec (.rmmovq n rA rB d) s = .next t → t.reg rD + d' = s.reg rB + d →
    exec (.mrmovq k rC rD d') t = .next u →
    u.stat = .AOK ∧ (rC ≠ .NONE → u.reg rC = s.reg rA)

/-! ## Arithmetic and logic -/

/-- `addq`: the sum modulo 2^64 in `rB`, ZF and SF from it, and OF exactly when the sum of the signed values does not fit
(R171). The Fetch ADR at 0xFFFF rests on D4 (log entry 6). -/
def Obligations.AddqAddsAndSetsFlags : Prop :=
  FetchAdrFrom 0x60 0xFFFF ∧
  ∀ rA rB, EncodedAs (.addq rA rB) [0x60, regByte rA rB] ∧
    ∀ s : State, s.running → ∃ t, exec (.addq rA rB) s = .next t ∧
      let a := (s.reg rA).toInt
      let b := (s.reg rB).toInt
      let e := (s.reg rB + s.reg rA).toInt
      WritesReg s t rB (s.reg rB + s.reg rA) ∧
      (t.cc.zf = true ↔ e = 0) ∧ (t.cc.sf = true ↔ e < 0) ∧
      (t.cc.of = true ↔ (a > 0 ∧ b > 0 ∧ e < 0) ∨ (a < 0 ∧ b < 0 ∧ e ≥ 0)) ∧
      (t.cc.of = true ↔ ¬(-2 ^ 63 ≤ a + b ∧ a + b < 2 ^ 63)) ∧
      AdvancesTo t (s.pc + 2) ∧ SameMem s t

/-- `subq`: `rB - rA` modulo 2^64 in `rB`, ZF and SF from it, OF by the printed predicate, which is exactly that the
difference of the signed values does not fit, but for `b = 0` and `a = -2^63`, where OF is 0 (R172). The Fetch ADR at
0xFFFF rests on D4 (log entry 6). -/
def Obligations.SubqSubtractsAndSetsFlags : Prop :=
  FetchAdrFrom 0x61 0xFFFF ∧
  ∀ rA rB, EncodedAs (.subq rA rB) [0x61, regByte rA rB] ∧
    ∀ s : State, s.running → ∃ t, exec (.subq rA rB) s = .next t ∧
      let a := (s.reg rA).toInt
      let b := (s.reg rB).toInt
      let e := (s.reg rB - s.reg rA).toInt
      WritesReg s t rB (s.reg rB - s.reg rA) ∧
      (t.cc.zf = true ↔ e = 0) ∧ (t.cc.sf = true ↔ e < 0) ∧
      (t.cc.of = true ↔ (b > 0 ∧ a < 0 ∧ e < 0) ∨ (b < 0 ∧ a > 0 ∧ e ≥ 0)) ∧
      (t.cc.of = true ↔ ¬(-2 ^ 63 ≤ b - a ∧ b - a < 2 ^ 63) ∧ ¬(b = 0 ∧ a = -2 ^ 63)) ∧
      AdvancesTo t (s.pc + 2) ∧ SameMem s t

/-- `andq` and `xorq`: the bitwise result in `rB`, ZF and SF from it, OF 0 (R173, R174). The Fetch ADR at 0xFFFF rests on
D4 (log entry 6). -/
def Obligations.AndqAndXorqSetFlags : Prop :=
  let logic (b0 : Byte) (mk : RegId → RegId → Instr) (f : Bool → Bool → Bool) : Prop :=
    FetchAdrFrom b0 0xFFFF ∧
    ∀ rA rB, EncodedAs (mk rA rB) [b0, regByte rA rB] ∧
      ∀ s : State, s.running → ∃ t e, exec (mk rA rB) s = .next t ∧
        (∀ k, k < 64 → e.getLsbD k = f ((s.reg rB).getLsbD k) ((s.reg rA).getLsbD k)) ∧
        WritesReg s t rB e ∧
        (t.cc.zf = true ↔ e.toInt = 0) ∧ (t.cc.sf = true ↔ e.toInt < 0) ∧ t.cc.of = false ∧
        AdvancesTo t (s.pc + 2) ∧ SameMem s t
  logic 0x62 .andq and ∧ logic 0x63 .xorq xor

/-- A reserved OPQ code completes: some value goes to `rB`, ZF and SF are those of that value, PC moves on by 2, STAT stays
AOK, memory and every other register stay. Nothing is said of the value or of OF, and it holds whatever they are (R175; free
values, D6, log entry 3). The Fetch ADR at 0xFFFF rests on D4 (log entry 6). -/
def Obligations.ReservedOpqCompletes : Prop :=
  FetchAdrFrom 0x64 0xFFFF ∧ FetchAdrFrom 0x6F 0xFFFF ∧
  ∀ rA rB,
    let completes (i : Instr) : Prop :=
      ∀ s : State, s.running → ∃ t e, exec i s = .next t ∧
        WritesReg s t rB e ∧ (t.cc.zf = true ↔ e.toInt = 0) ∧ (t.cc.sf = true ↔ e.toInt < 0) ∧
        AdvancesTo t (s.pc + 2) ∧ SameMem s t
    (∀ ifun : Nibble, 4 ≤ ifun.toNat → ifun.toNat ≤ 7 →
      EncodedAs (.reservedOpq4to7 ifun rA rB) [nibbles 0x6 ifun, regByte rA rB] ∧
      completes (.reservedOpq4to7 ifun rA rB)) ∧
    (∀ ifun : Nibble, 8 ≤ ifun.toNat →
      EncodedAs (.reservedOpq8to15 ifun rA rB) [nibbles 0x6 ifun, regByte rA rB] ∧
      completes (.reservedOpq8to15 ifun rA rB))

/-- After `subq rA, rB` the six conditions compare the old `rB` with `rA` as signed numbers, unless `rB` was 0 and `rA`
-2^63 (40_step_skeleton.md sections 4, R114, R115). -/
def Obligations.ConditionsCompareAfterSubq : Prop :=
  ∀ (rA rB : RegId) (s t : State), exec (.subq rA rB) s = .next t →
    let a := (s.reg rA).toInt
    let b := (s.reg rB).toInt
    ¬(b = 0 ∧ a = -2 ^ 63) →
      (condHolds .le t.cc = true ↔ b ≤ a) ∧ (condHolds .l t.cc = true ↔ b < a) ∧ (condHolds .e t.cc = true ↔ b = a) ∧
      (condHolds .ne t.cc = true ↔ b ≠ a) ∧ (condHolds .ge t.cc = true ↔ b ≥ a) ∧ (condHolds .g t.cc = true ↔ b > a)

/-! ## Control transfer -/

/-- `jmp` and the six conditional jumps go to their target when their condition holds, else to PC + 9, whatever the
target; nothing but PC changes (R190 to R196). The first bytes rest on D3 (log entry 5). -/
def Obligations.JumpsWhenConditionHolds : Prop :=
  let jumps (b0 : Byte) (mk : Word → Instr) (c : Flags → Bool) : Prop :=
    FetchAdrFrom b0 0xFFF8 ∧
    ∀ dest, EncodedAs (mk dest) (b0 :: wordBytes dest) ∧
      ∀ s : State, s.running → ∃ t, exec (mk dest) s = .next t ∧
        AdvancesTo t (if c s.cc then dest else s.pc + 9) ∧ t.cc = s.cc ∧ SameRegsExcept [] s t ∧ SameMem s t
  jumps 0x70 .jmp (fun _ => true) ∧
  jumps 0x71 .jle (fun f => (f.sf ^^ f.of) || f.zf) ∧
  jumps 0x72 .jl (fun f => f.sf ^^ f.of) ∧
  jumps 0x73 .je (fun f => f.zf) ∧
  jumps 0x74 .jne (fun f => !f.zf) ∧
  jumps 0x75 .jge (fun f => !(f.sf ^^ f.of)) ∧
  jumps 0x76 .jg (fun f => !(f.sf ^^ f.of) && !f.zf)

/-- A reserved jump (`ifun` 7 to 15) moves PC on by 9, its constant fetched and unused, and changes nothing else (R197). The
first bytes rest on D3 (log entry 5). -/
def Obligations.ReservedJumpNeverJumps : Prop :=
  ∀ dest : Word,
    EncodedAs (.reservedJump7 dest) (0x77 :: wordBytes dest) ∧
    (∀ ifun : Nibble, 7 ≤ ifun.toNat → FetchAdrFrom (nibbles 0x7 ifun) 0xFFF8) ∧
    (∀ ifun : Nibble, 8 ≤ ifun.toNat → EncodedAs (.reservedJump8to15 ifun dest) (nibbles 0x7 ifun :: wordBytes dest)) ∧
    ∀ (ifun : Nibble) (s : State), s.running →
      ∃ t, exec (.reservedJump7 dest) s = .next t ∧ exec (.reservedJump8to15 ifun dest) s = .next t ∧
        AdvancesTo t (s.pc + 9) ∧ t.cc = s.cc ∧ SameRegsExcept [] s t ∧ SameMem s t

/-- `call` pushes PC + 9 at `rsp - 8` and goes to its target when that address is at most 0xFFF8; above that STAT becomes ADR,
PC and memory stay and `rsp` is still decremented (R198). The first bytes rest on D3
(log entry 5), the range on D5 (log entry 7), the registers after a Memory-phase ADR on D7 (log entry 8). -/
def Obligations.CallPushesAndJumps : Prop :=
  ∀ (n : Nibble) (dest : Word),
    EncodedAs (.call n dest) (nibbles 0x8 n :: wordBytes dest) ∧ FetchAdrFrom (nibbles 0x8 n) 0xFFF8 ∧
    ∀ s : State, s.running → s.Inv →
      ((s.reg .rsp - 8).toNat ≤ 0xFFF8 → ∃ t, exec (.call n dest) s = .next t ∧
        Holds8 t (s.reg .rsp - 8) (s.pc + 9) ∧ SameMemExcept8 (s.reg .rsp - 8) s t ∧
        WritesReg s t .rsp (s.reg .rsp - 8) ∧ AdvancesTo t dest ∧ t.cc = s.cc) ∧
      (0xFFF8 < (s.reg .rsp - 8).toNat → ∃ t, exec (.call n dest) s = .next t ∧
        WritesReg s t .rsp (s.reg .rsp - 8) ∧ StopsWithAdr s t ∧ t.cc = s.cc ∧ SameMem s t)

/-- `ret` takes the word at `rsp` as the new PC, whatever it is, and adds 8 to `rsp` when `rsp` is at most 0xFFF8; above that
STAT becomes ADR, PC stays and `rsp` is still incremented (R199). The first bytes rest on D3
(log entry 5), the range on D5 (log entry 7), the registers after a Memory-phase ADR on D7 (log entry 8). -/
def Obligations.RetPopsPc : Prop :=
  ∀ n : Nibble,
    EncodedAs (.ret n) [nibbles 0x9 n] ∧
    ∀ s : State, s.running →
      ((s.reg .rsp).toNat ≤ 0xFFF8 → ∃ t v, exec (.ret n) s = .next t ∧
        Holds8 s (s.reg .rsp) v ∧ WritesReg s t .rsp (s.reg .rsp + 8) ∧
        AdvancesTo t v ∧ t.cc = s.cc ∧ SameMem s t) ∧
      (0xFFF8 < (s.reg .rsp).toNat → ∃ t, exec (.ret n) s = .next t ∧
        WritesReg s t .rsp (s.reg .rsp + 8) ∧ StopsWithAdr s t ∧ t.cc = s.cc ∧ SameMem s t)

/-- A `ret` that finds the stack as its `call` left it returns to the address after the call with `rsp` restored
(44_jxx_call_ret.md, scenario S5). -/
def Obligations.RetUndoesCall : Prop :=
  ∀ (n k : Nibble) (dest : Word) (s t u v : State),
    s.running → s.Inv → (s.reg .rsp - 8).toNat ≤ 0xFFF8 → exec (.call n dest) s = .next t →
    u.running → u.reg .rsp = t.reg .rsp →
    (∀ j, j < 8 → u.mem.readByte ((t.reg .rsp).toNat + j) = t.mem.readByte ((t.reg .rsp).toNat + j)) →
    exec (.ret k) u = .next v →
    v.stat = .AOK ∧ v.pc = s.pc + 9 ∧ v.reg .rsp = s.reg .rsp

/-- A jump to a target outside memory ends with STAT = AOK; the machine has stopped there and the run is that one record
(40_step_skeleton.md, R121 kind b; C2). -/
def Obligations.JumpOutOfMemoryStopsWithAok : Prop :=
  ∀ (s : State) (dest : Word), s.running → 0x10000 ≤ dest.toNat →
    ∃ t, exec (.jmp dest) s = .next t ∧ t.stat = .AOK ∧ t.pc = dest ∧ t.stopped = true ∧
      t.ending = some .leftMemory ∧ (s.at (.jmp dest) → ∀ fuel, run (fuel + 1) s = [t])

/-! ## Stack -/

/-- `pushq` stores the old `rA` at `rsp - 8` and decrements `rsp` when that address is at most 0xFFF8; above that STAT becomes
ADR, PC and memory stay and `rsp` is still decremented (R215). The first bytes rest on D3
(log entry 5), the range on D5 (log entry 7), the registers after a Memory-phase ADR on D7 (log entry 8), the
Fetch ADR at 0xFFFF on D4 (log entry 6). -/
def Obligations.PushqStoresAndDecrements : Prop :=
  ∀ (n : Nibble) (rA rB : RegId),
    EncodedAs (.pushq n rA rB) [nibbles 0xA n, regByte rA rB] ∧ FetchAdrFrom (nibbles 0xA n) 0xFFFF ∧
    ∀ s : State, s.running → s.Inv →
      ((s.reg .rsp - 8).toNat ≤ 0xFFF8 → ∃ t, exec (.pushq n rA rB) s = .next t ∧
        Holds8 t (s.reg .rsp - 8) (s.reg rA) ∧ SameMemExcept8 (s.reg .rsp - 8) s t ∧
        WritesReg s t .rsp (s.reg .rsp - 8) ∧ AdvancesTo t (s.pc + 2) ∧ t.cc = s.cc) ∧
      (0xFFF8 < (s.reg .rsp - 8).toNat → ∃ t, exec (.pushq n rA rB) s = .next t ∧
        WritesReg s t .rsp (s.reg .rsp - 8) ∧ StopsWithAdr s t ∧ t.cc = s.cc ∧ SameMem s t)

/-- `popq` loads the word at the old `rsp` into `rA` and adds 8 to `rsp`, the load winning when `rA` is `rsp`; when the old `rsp`
is above 0xFFF8, STAT becomes ADR, PC stays, `rsp` is still incremented and `rA` gets 0 (R216). The first bytes rest on D3
(log entry 5), the range on D5 (log entry 7), the registers after a Memory-phase ADR on D7 (log entry 8), the
Fetch ADR at 0xFFFF on D4 (log entry 6). -/
def Obligations.PopqLoadsAndIncrements : Prop :=
  ∀ (n : Nibble) (rA rB : RegId),
    EncodedAs (.popq n rA rB) [nibbles 0xB n, regByte rA rB] ∧ FetchAdrFrom (nibbles 0xB n) 0xFFFF ∧
    ∀ s : State, s.running →
      let pops (t : State) (v : Word) : Prop :=
        (rA ≠ .NONE → t.reg rA = v) ∧ (rA ≠ .rsp → t.reg .rsp = s.reg .rsp + 8) ∧
        SameRegsExcept [.rsp, rA] s t ∧ t.cc = s.cc ∧ SameMem s t
      ((s.reg .rsp).toNat ≤ 0xFFF8 → ∃ t v, exec (.popq n rA rB) s = .next t ∧
        Holds8 s (s.reg .rsp) v ∧ pops t v ∧ AdvancesTo t (s.pc + 2)) ∧
      (0xFFF8 < (s.reg .rsp).toNat → ∃ t, exec (.popq n rA rB) s = .next t ∧ pops t 0 ∧ StopsWithAdr s t)

/-- `pushq r; popq r'` with distinct registers, neither faulting, gives `r'` the old `r`; `rsp` is back exactly when `r'` is not
`rsp`, and otherwise is the old `r` (R217). -/
def Obligations.PopAfterPush : Prop :=
  ∀ (n k : Nibble) (r r' rB rB' : RegId) (s t u : State), s.running → s.Inv →
    exec (.pushq n r rB) s = .next t → t.running → exec (.popq k r' rB') t = .next u → u.running →
    (r' ≠ .NONE → u.reg r' = s.reg r) ∧
    (r' ≠ .rsp → u.reg .rsp = s.reg .rsp) ∧
    (r' = .rsp → u.reg .rsp = s.reg r)

/-! ## Stores and fetch, runs, records -/

/-- A store is seen by the very next fetch: when `rmmovq` writes a word whose low byte is 0x00 over the instruction that follows
it, the next step is a `halt` (20_memory.md, R66; program P6). -/
def Obligations.StoreIsSeenByTheNextFetch : Prop :=
  ∀ (n : Nibble) (rA rB : RegId) (d : Word) (s : State),
    s.running → s.Inv → s.at (.rmmovq n rA rB d) →
    s.reg rB + d = s.pc + 10 → (s.reg rB + d).toNat ≤ 0xFFF8 → (s.reg rA).extractLsb' 0 8 = 0 →
    ∃ t u, step s = .next t ∧ step t = .next u ∧ u.stat = .HLT ∧ u.pc = s.pc + 10

/-- A run sets STAT to AOK and steps; its first record is that step, and it goes on from there unless the machine has stopped
(R120). It emits one record a step and ends at the first state that has stopped: only the last record has stopped, and a
run shorter than its fuel ends with one that has; what stopped means, and the four endings (R121, R271; 40 and 70). -/
def Obligations.RunEndsAtTheFirstStoppedState : Prop :=
  (∀ (fuel : Nat) (s t : State), step (s.raise .AOK) = .next t →
    run (fuel + 1) s = t :: (if t.stopped then [] else run fuel t)) ∧
  (∀ (fuel : Nat) (s : State),
    (run fuel s).length ≤ fuel ∧
    (∀ pre t u post, run fuel s = pre ++ t :: u :: post → t.stopped = false ∧ step t = .next u) ∧
    ((run fuel s).length < fuel → ∃ pre t, run fuel s = pre ++ [t] ∧ t.stopped = true)) ∧
  (∀ t : State,
    (t.stopped = true ↔ t.stat ≠ .AOK ∨ 0x10000 ≤ t.pc.toNat) ∧
    (t.stopped = true ↔ t.ending ≠ none) ∧
    (t.ending = some .halted ↔ t.stat = .HLT) ∧
    (t.ending = some .badAddress ↔ t.stat = .ADR) ∧
    (t.ending = some .illegalInstruction ↔ t.stat = .INS) ∧
    (t.ending = some .leftMemory ↔ t.stat = .AOK ∧ 0x10000 ≤ t.pc.toNat))

/-- The memory part of a record shows each aligned 8-byte word that is not zero, once, with its signed value, and no other
word (70_reset_and_hazards.md, R269). -/
def Obligations.RecordShowsTheNonzeroWords : Prop :=
  ∀ s : State, s.Inv →
    ((s.record).mem.map Prod.fst).Nodup ∧
    ∀ (a : Nat) (v : Int), (a, v) ∈ (s.record).mem ↔
      a % 8 = 0 ∧ a < 0x10000 ∧ v ≠ 0 ∧ v = (le64 (s.mem.readBytes a 8)).toInt
end

