-- ==== Sys2Proof/Laws/Bytes.lean ====
section
/-! SUPPORT. Byte order and nibbles: the helpers of Decode undo each other. -/

namespace Sys2Proof

@[simp] theorem length_toBytes (n v : Nat) : (toBytes n v).length = n := by
  induction n generalizing v with
  | zero => rfl
  | succ n ih => simp [toBytes, ih]

/-- The low bytes of a number spell it modulo the bytes' range. -/
theorem leNat_toBytes (n v : Nat) : leNat (toBytes n v) = v % 256 ^ n := by
  induction n generalizing v with
  | zero => simp [toBytes, leNat, Nat.mod_one]
  | succ n ih =>
    have split : v % 256 ^ (n + 1) = v % 256 + 256 * (v / 256 % 256 ^ n) := by
      rw [Nat.pow_succ, Nat.mul_comm, Nat.mod_mul]
    simp [toBytes, leNat, ih, split]

/-- Bytes are the low bytes of the number they spell. -/
theorem toBytes_leNat (bs : List Byte) : toBytes bs.length (leNat bs) = bs := by
  induction bs with
  | nil => rfl
  | cons b bs ih =>
    have low : BitVec.ofNat 8 (b.toNat + 256 * leNat bs) = b := by
      apply BitVec.eq_of_toNat_eq
      have := b.isLt
      simp only [BitVec.toNat_ofNat]
      omega
    have high : (b.toNat + 256 * leNat bs) / 256 = leNat bs := by
      have := b.isLt
      omega
    simp [toBytes, leNat, low, high, ih]

theorem leNat_lt (bs : List Byte) : leNat bs < 256 ^ bs.length := by
  induction bs with
  | nil => simp [leNat]
  | cons b bs ih =>
    have := b.isLt
    simp only [leNat, List.length_cons, Nat.pow_succ]
    omega

@[simp] theorem length_wordBytes (v : Word) : (wordBytes v).length = 8 := length_toBytes 8 _

/-- The eight bytes of a value spell it (R56). -/
@[simp] theorem le64_wordBytes (v : Word) : le64 (wordBytes v) = v := by
  apply BitVec.eq_of_toNat_eq
  have := v.isLt
  simp only [le64, wordBytes, leNat_toBytes, BitVec.toNat_ofNat]
  omega

/-- Eight bytes are the bytes of the value they spell (R56). -/
theorem wordBytes_le64 (bs : List Byte) (h : bs.length = 8) : wordBytes (le64 bs) = bs := by
  have bound := leNat_lt bs
  rw [h] at bound
  have value : (le64 bs).toNat = leNat bs := by
    simp only [le64, BitVec.toNat_ofNat]
    omega
  rw [wordBytes, value, ← h, toBytes_leNat]

/-- Byte `k` of `toBytes` is the number shifted right by `8 * k` bits, cut to a byte. -/
theorem getElem?_toBytes (n v k : Nat) (h : k < n) : (toBytes n v)[k]? = some (BitVec.ofNat 8 (v / 256 ^ k)) := by
  induction n generalizing v k with
  | zero => omega
  | succ n ih =>
    cases k with
    | zero => simp [toBytes]
    | succ k =>
      simp only [toBytes, List.getElem?_cons_succ, ih _ _ (Nat.lt_of_succ_lt_succ h), Nat.div_div_eq_div_mul,
        Nat.pow_succ, Nat.mul_comm]

/-- Byte `k` of a value holds its bits `8k+7` down to `8k` (R54). -/
theorem getElem?_wordBytes (v : Word) (k : Nat) (h : k < 8) :
    (wordBytes v)[k]? = some (v.extractLsb' (8 * k) 8) := by
  rw [wordBytes, getElem?_toBytes _ _ _ h]
  congr 1
  apply BitVec.eq_of_toNat_eq
  simp [BitVec.extractLsb'_toNat, Nat.shiftRight_eq_div_pow, Nat.pow_mul]

@[simp] theorem highNibble_nibbles (hi lo : Nibble) : highNibble (nibbles hi lo) = hi := by
  revert hi lo; decide

@[simp] theorem lowNibble_nibbles (hi lo : Nibble) : lowNibble (nibbles hi lo) = lo := by
  revert hi lo; decide

@[simp] theorem nibbles_high_low (b : Byte) : nibbles (highNibble b) (lowNibble b) = b := by
  revert b; decide

@[simp] theorem RegId.ofNibble_toNibble (r : RegId) : RegId.ofNibble r.toNibble = r := by
  cases r <;> rfl

@[simp] theorem RegId.toNibble_ofNibble (n : Nibble) : (RegId.ofNibble n).toNibble = n := by
  revert n; decide

@[simp] theorem IClass.ofNibble_toNibble (c : IClass) : IClass.ofNibble c.toNibble = some c := by
  cases c <;> rfl

/-- A nibble selects a class exactly when it is the class's number (R85). -/
theorem IClass.ofNibble_eq_some (n : Nibble) (c : IClass) : IClass.ofNibble n = some c ↔ n = c.toNibble := by
  revert n; cases c <;> decide

/-- A byte has no class exactly when it is 0xC0 or above (R89). -/
theorem IClass.ofNibble_highNibble_eq_none (b : Byte) :
    IClass.ofNibble (highNibble b) = none ↔ 0xC0 ≤ b.toNat := by
  revert b; decide

end Sys2Proof
end

