-- ==== Sys2Proof/Laws/Memory.lean ====
section
/-! SUPPORT. Memory: reads after writes, and the canonical form that every operation keeps. -/

namespace Sys2Proof.Machine

/-! ### Single bytes -/

theorem Memory.readByte_nil (a : Nat) : Memory.readByte [] a = 0 := rfl

theorem Memory.wfFrom_mono {lo lo' : Nat} {m : Memory} (h : m.wfFrom lo = true) (hl : lo' ≤ lo) :
    m.wfFrom lo' = true := by
  cases m with
  | nil => rfl
  | cons c m =>
    simp only [Memory.wfFrom, Bool.and_eq_true, decide_eq_true_eq] at h ⊢
    exact ⟨⟨⟨by omega, h.1.1.2⟩, h.1.2⟩, h.2⟩

/-- Below the first listed address nothing is listed. -/
theorem Memory.readByte_of_lt {lo : Nat} {m : Memory} (h : m.wfFrom lo = true) {a : Nat} (ha : a < lo) :
    m.readByte a = 0 := by
  induction m generalizing lo with
  | nil => rfl
  | cons c m ih =>
    simp only [Memory.wfFrom, Bool.and_eq_true, decide_eq_true_eq] at h
    have ne : a ≠ c.1 := by omega
    simp [Memory.readByte, ne, ih h.2 (by omega : a < c.1 + 1)]

/-- A write leaves every other byte alone. -/
theorem Memory.readByte_writeByte_of_ne (m : Memory) (a : Nat) (v : Byte) {c : Nat} (h : c ≠ a) :
    (m.writeByte a v).readByte c = m.readByte c := by
  induction m with
  | nil =>
    simp only [Memory.writeByte]
    split <;> simp [Memory.readByte, h]
  | cons x m ih =>
    simp only [Memory.writeByte]
    split_ifs with h1 h2 h3 h4
    · rfl
    · simp [Memory.readByte, h]
    · subst h3; simp [Memory.readByte, h]
    · subst h3; simp [Memory.readByte, h]
    · simp only [Memory.readByte, ih]

/-- A byte written is read back, in canonical memory. -/
theorem Memory.readByte_writeByte_self {lo : Nat} {m : Memory} (h : m.wfFrom lo = true) (a : Nat) (v : Byte) :
    (m.writeByte a v).readByte a = v := by
  induction m generalizing lo with
  | nil =>
    simp only [Memory.writeByte]
    split_ifs with hv <;> simp [Memory.readByte, hv]
  | cons x m ih =>
    simp only [Memory.wfFrom, Bool.and_eq_true, decide_eq_true_eq] at h
    simp only [Memory.writeByte]
    split_ifs with h1 h2 h3 h4
    · have ne : a ≠ x.1 := by omega
      subst h2
      simpa [Memory.readByte, ne, Memory.unlisted] using Memory.readByte_of_lt h.2 (by omega : a < x.1 + 1)
    · simp [Memory.readByte]
    · subst h4
      exact Memory.readByte_of_lt h.2 (by omega)
    · simp [Memory.readByte]
    · simpa [Memory.readByte, h3] using ih h.2

theorem Memory.wfFrom_writeByte {lo : Nat} {m : Memory} (h : m.wfFrom lo = true) {a : Nat} (v : Byte)
    (hlo : lo ≤ a) (ha : a < Config.memSize) : (m.writeByte a v).wfFrom lo = true := by
  induction m generalizing lo with
  | nil =>
    simp only [Memory.writeByte]
    split_ifs with hv <;> simp [Memory.wfFrom, hlo, ha, hv]
  | cons x m ih =>
    have h' := h
    simp only [Memory.wfFrom, Bool.and_eq_true, decide_eq_true_eq] at h
    simp only [Memory.writeByte]
    split_ifs with h1 h2 h3 h4
    · exact h'
    · simp only [Memory.wfFrom, Bool.and_eq_true, decide_eq_true_eq]
      exact ⟨⟨⟨hlo, ha⟩, h2⟩, ⟨⟨by omega, h.1.1.2⟩, h.1.2⟩, h.2⟩
    · exact Memory.wfFrom_mono h.2 (by omega)
    · subst h3
      simp only [Memory.wfFrom, Bool.and_eq_true, decide_eq_true_eq]
      exact ⟨⟨⟨hlo, ha⟩, h4⟩, h.2⟩
    · simp only [Memory.wfFrom, Bool.and_eq_true, decide_eq_true_eq]
      exact ⟨h.1, ih h.2 (by omega)⟩

/-- Writing a byte inside memory keeps the canonical form. -/
theorem Memory.wf_writeByte {m : Memory} (h : m.wf = true) {a : Nat} (v : Byte) (ha : a < Config.memSize) :
    (m.writeByte a v).wf = true :=
  Memory.wfFrom_writeByte h v (Nat.zero_le a) ha

/-! ### Runs of bytes -/

@[simp] theorem Memory.length_readBytes (m : Memory) (a n : Nat) : (m.readBytes a n).length = n := by
  induction n generalizing a with
  | zero => rfl
  | succ n ih => simp [Memory.readBytes, ih]

/-- Byte `k` of a run of bytes. -/
theorem Memory.getElem?_readBytes (m : Memory) (a n k : Nat) (h : k < n) :
    (m.readBytes a n)[k]? = some (m.readByte (a + k)) := by
  induction n generalizing a k with
  | zero => omega
  | succ n ih =>
    cases k with
    | zero => simp [Memory.readBytes]
    | succ k =>
      simp only [Memory.readBytes, List.getElem?_cons_succ, ih _ _ (Nat.lt_of_succ_lt_succ h)]
      congr 2
      omega

/-- A run of bytes is a shorter run and the run after it. -/
theorem Memory.readBytes_add (m : Memory) (a n k : Nat) :
    m.readBytes a (n + k) = m.readBytes a n ++ m.readBytes (a + n) k := by
  induction n generalizing a with
  | zero => simp [Memory.readBytes]
  | succ n ih => simp [Memory.readBytes, ih, Nat.add_right_comm, Nat.add_assoc]

/-- Two memories that agree on a run of bytes read the same run. -/
theorem Memory.readBytes_congr {m m' : Memory} {a n : Nat}
    (h : ∀ k, k < n → m.readByte (a + k) = m'.readByte (a + k)) : m.readBytes a n = m'.readBytes a n := by
  induction n generalizing a with
  | zero => rfl
  | succ n ih =>
    have first := h 0 (Nat.succ_pos n)
    simp only [Nat.add_zero] at first
    have rest : ∀ k, k < n → m.readByte (a + 1 + k) = m'.readByte (a + 1 + k) := fun k hk => by
      simpa only [Nat.add_assoc, Nat.add_comm 1 k] using h (k + 1) (Nat.succ_lt_succ hk)
    simp only [Memory.readBytes, first, ih rest]

theorem Memory.wf_writeBytes {m : Memory} (h : m.wf = true) (a : Nat) (bs : List Byte)
    (ha : a + bs.length ≤ Config.memSize) : (m.writeBytes a bs).wf = true := by
  induction bs generalizing m a with
  | nil => exact h
  | cons b bs ih =>
    simp only [List.length_cons] at ha
    exact ih (Memory.wf_writeByte h b (by omega)) (a + 1) (by omega)

/-- Writing a run leaves every byte outside it alone. -/
theorem Memory.readByte_writeBytes_of_outside (m : Memory) (a : Nat) (bs : List Byte) {c : Nat}
    (h : ¬(a ≤ c ∧ c < a + bs.length)) : (m.writeBytes a bs).readByte c = m.readByte c := by
  induction bs generalizing m a with
  | nil => rfl
  | cons b bs ih =>
    simp only [List.length_cons] at h
    rw [Memory.writeBytes, ih _ _ (by omega), Memory.readByte_writeByte_of_ne _ _ _ (by omega)]

/-- A run written inside memory is read back. -/
theorem Memory.readBytes_writeBytes {m : Memory} (h : m.wf = true) (a : Nat) (bs : List Byte)
    (ha : a + bs.length ≤ Config.memSize) : (m.writeBytes a bs).readBytes a bs.length = bs := by
  induction bs generalizing m a with
  | nil => rfl
  | cons b bs ih =>
    simp only [List.length_cons] at ha
    have wf := Memory.wf_writeByte h b (by omega : a < Config.memSize)
    have first : ((m.writeByte a b).writeBytes (a + 1) bs).readByte a = b := by
      rw [Memory.readByte_writeBytes_of_outside _ _ _ (by omega), Memory.readByte_writeByte_self h]
    simp only [Memory.writeBytes, List.length_cons, Memory.readBytes, first, ih wf (a + 1) (by omega)]

/-! ### Range checks -/

theorem toInt_eq_of_small {a : Word} (h : a.toNat < 2 ^ 63) : a.toInt = a.toNat := by
  rw [BitVec.toInt_eq_toNat_cond, if_pos (by omega)]

theorem toInt_neg_of_large {a : Word} (h : 2 ^ 63 ≤ a.toNat) : a.toInt < 0 := by
  have := a.isLt
  rw [BitVec.toInt_eq_toNat_cond, if_neg (by omega)]
  omega

/-- `InRange1` on the unsigned reading (R28, R55). -/
theorem inRange1_iff (a : Word) : inRange1 a = true ↔ a.toNat < Config.memSize := by
  simp only [inRange1, Bool.and_eq_true, decide_eq_true_eq, Config.memSize]
  by_cases h : a.toNat < 2 ^ 63
  · rw [toInt_eq_of_small h]; omega
  · have := toInt_neg_of_large (Nat.le_of_not_lt h); omega

/-- `InRange8` gives a place for all eight bytes. -/
theorem inRange8_iff_add (a : Word) : inRange8 a = true ↔ a.toNat + 8 ≤ Config.memSize := by
  simp only [inRange8, Bool.and_eq_true, decide_eq_true_eq, Config.memSize]
  by_cases h : a.toNat < 2 ^ 63
  · rw [toInt_eq_of_small h]; omega
  · have := toInt_neg_of_large (Nat.le_of_not_lt h); omega

/-! ### Eight-byte accesses -/

theorem Memory.read8_of_inRange (m : Memory) {a : Word} (h : inRange8 a = true) :
    m.read8 a = some (le64 (m.readBytes a.toNat 8)) := by
  simp [Memory.read8, h]

theorem Memory.read8_of_not_inRange (m : Memory) {a : Word} (h : inRange8 a = false) : m.read8 a = none := by
  simp [Memory.read8, h]

/-- All that a successful `write8` does. -/
theorem Memory.write8_eq_some {m m' : Memory} {a v : Word} (h : m.write8 a v = some m') :
    inRange8 a = true ∧ m' = m.writeBytes a.toNat (wordBytes v) := by
  simp only [Memory.write8] at h
  split_ifs at h with hr
  exact ⟨hr, (Option.some.inj h).symm⟩

theorem Memory.write8_of_not_inRange (m : Memory) {a : Word} (v : Word) (h : inRange8 a = false) :
    m.write8 a v = none := by
  simp [Memory.write8, h]

/-- `write8` keeps the canonical form. -/
theorem Memory.wf_write8 {m m' : Memory} {a v : Word} (hw : m.write8 a v = some m') (h : m.wf = true) :
    m'.wf = true := by
  obtain ⟨hr, rfl⟩ := Memory.write8_eq_some hw
  exact Memory.wf_writeBytes h _ _ (by simpa using (inRange8_iff_add a).1 hr)

/-! ### The loader -/

theorem Memory.wf_loadByte {m : Memory} (h : m.wf = true) (a : Nat) (v : Byte) : (m.loadByte a v).wf = true := by
  simp only [Memory.loadByte]
  split_ifs with ha
  · exact Memory.wf_writeByte h v ha
  · exact h

theorem Memory.wf_loadBytes {m : Memory} (h : m.wf = true) (a : Nat) (bs : List Byte) :
    (m.loadBytes a bs).wf = true := by
  induction bs generalizing m a with
  | nil => exact h
  | cons b bs ih => exact ih (Memory.wf_loadByte h a b) (a + 1)

/-- Memory at reset is canonical. -/
theorem State.wf_reset_mem : State.reset.mem.wf = true := rfl

end Sys2Proof.Machine
end

