-- ==== Sys2Proof/Laws/State.lean ====
section
/-! SUPPORT. One lemma per field per update of State, so that no proof unfolds a record update. -/

namespace Sys2Proof.Machine

@[simp] theorem State.setReg_pc (s : State) (r : RegId) (v : Word) : (s.setReg r v).pc = s.pc := rfl
@[simp] theorem State.setReg_regs (s : State) (r : RegId) (v : Word) : (s.setReg r v).regs = s.regs.set r v := rfl
@[simp] theorem State.setReg_cc (s : State) (r : RegId) (v : Word) : (s.setReg r v).cc = s.cc := rfl
@[simp] theorem State.setReg_stat (s : State) (r : RegId) (v : Word) : (s.setReg r v).stat = s.stat := rfl
@[simp] theorem State.setReg_mem (s : State) (r : RegId) (v : Word) : (s.setReg r v).mem = s.mem := rfl
@[simp] theorem State.setReg_draws (s : State) (r : RegId) (v : Word) : (s.setReg r v).draws = s.draws := rfl

@[simp] theorem State.setMem_pc (s : State) (m : Memory) : (s.setMem m).pc = s.pc := rfl
@[simp] theorem State.setMem_regs (s : State) (m : Memory) : (s.setMem m).regs = s.regs := rfl
@[simp] theorem State.setMem_cc (s : State) (m : Memory) : (s.setMem m).cc = s.cc := rfl
@[simp] theorem State.setMem_stat (s : State) (m : Memory) : (s.setMem m).stat = s.stat := rfl
@[simp] theorem State.setMem_mem (s : State) (m : Memory) : (s.setMem m).mem = m := rfl
@[simp] theorem State.setMem_draws (s : State) (m : Memory) : (s.setMem m).draws = s.draws := rfl

@[simp] theorem State.setFlags_pc (s : State) (f : Flags) : (s.setFlags f).pc = s.pc := rfl
@[simp] theorem State.setFlags_regs (s : State) (f : Flags) : (s.setFlags f).regs = s.regs := rfl
@[simp] theorem State.setFlags_cc (s : State) (f : Flags) : (s.setFlags f).cc = f := rfl
@[simp] theorem State.setFlags_stat (s : State) (f : Flags) : (s.setFlags f).stat = s.stat := rfl
@[simp] theorem State.setFlags_mem (s : State) (f : Flags) : (s.setFlags f).mem = s.mem := rfl
@[simp] theorem State.setFlags_draws (s : State) (f : Flags) : (s.setFlags f).draws = s.draws := rfl

@[simp] theorem State.draw_pc (s : State) : (s.draw).pc = s.pc := rfl
@[simp] theorem State.draw_regs (s : State) : (s.draw).regs = s.regs := rfl
@[simp] theorem State.draw_cc (s : State) : (s.draw).cc = s.cc := rfl
@[simp] theorem State.draw_stat (s : State) : (s.draw).stat = s.stat := rfl
@[simp] theorem State.draw_mem (s : State) : (s.draw).mem = s.mem := rfl
@[simp] theorem State.draw_draws (s : State) : (s.draw).draws = s.draws + 1 := rfl

@[simp] theorem State.raise_pc (s : State) (x : Stat) : (s.raise x).pc = s.pc := rfl
@[simp] theorem State.raise_regs (s : State) (x : Stat) : (s.raise x).regs = s.regs := rfl
@[simp] theorem State.raise_cc (s : State) (x : Stat) : (s.raise x).cc = s.cc := rfl
@[simp] theorem State.raise_stat (s : State) (x : Stat) : (s.raise x).stat = x := rfl
@[simp] theorem State.raise_mem (s : State) (x : Stat) : (s.raise x).mem = s.mem := rfl
@[simp] theorem State.raise_draws (s : State) (x : Stat) : (s.raise x).draws = s.draws := rfl

@[simp] theorem State.setMem_reg (s : State) (m : Memory) (r : RegId) : (s.setMem m).reg r = s.reg r := rfl
@[simp] theorem State.setFlags_reg (s : State) (f : Flags) (r : RegId) : (s.setFlags f).reg r = s.reg r := rfl
@[simp] theorem State.draw_reg (s : State) (r : RegId) : (s.draw).reg r = s.reg r := rfl
@[simp] theorem State.raise_reg (s : State) (x : Stat) (r : RegId) : (s.raise x).reg r = s.reg r := rfl

/-- Reading a register after writing one: a write of NONE is dropped (R24). -/
theorem RegFile.get_set (f : RegFile) (r q : RegId) (v : Word) :
    (f.set r v).get q = if q = r ∧ r ≠ .NONE then v else f.get q := by
  cases r <;> cases q <;> rfl

@[simp] theorem RegFile.get_NONE (f : RegFile) : f.get .NONE = 0 := rfl

@[simp] theorem RegFile.set_NONE (f : RegFile) (v : Word) : f.set .NONE v = f := rfl

@[simp] theorem State.reg_NONE (s : State) : s.reg .NONE = 0 := rfl

@[simp] theorem State.setReg_NONE (s : State) (v : Word) : s.setReg .NONE v = s := rfl

theorem State.setReg_reg (s : State) (r q : RegId) (v : Word) :
    (s.setReg r v).reg q = if q = r ∧ r ≠ .NONE then v else s.reg q :=
  RegFile.get_set s.regs r q v

theorem State.setReg_reg_of_ne (s : State) (r q : RegId) (v : Word) (h : q ≠ r) :
    (s.setReg r v).reg q = s.reg q := by
  simp [State.setReg_reg, h]

@[simp] theorem State.setReg_reg_self (s : State) (r : RegId) (v : Word) :
    (s.setReg r v).reg r = if r = .NONE then 0 else v := by
  by_cases h : r = .NONE <;> simp [State.setReg_reg, h]

end Sys2Proof.Machine
end

