-- ==== Sys2Proof/Laws/Ops.lean ====
section
/-! SUPPORT. One lemma per shared operation that says all it can do; later proofs cite these. -/

namespace Sys2Proof.Machine

/-! ### PC update -/

@[simp] theorem State.pcUpdate_regs (s : State) (p : Word) : (s.pcUpdate p).regs = s.regs := by
  unfold State.pcUpdate; split <;> rfl

@[simp] theorem State.pcUpdate_cc (s : State) (p : Word) : (s.pcUpdate p).cc = s.cc := by
  unfold State.pcUpdate; split <;> rfl

@[simp] theorem State.pcUpdate_stat (s : State) (p : Word) : (s.pcUpdate p).stat = s.stat := by
  unfold State.pcUpdate; split <;> rfl

@[simp] theorem State.pcUpdate_mem (s : State) (p : Word) : (s.pcUpdate p).mem = s.mem := by
  unfold State.pcUpdate; split <;> rfl

@[simp] theorem State.pcUpdate_draws (s : State) (p : Word) : (s.pcUpdate p).draws = s.draws := by
  unfold State.pcUpdate; split <;> rfl

@[simp] theorem State.pcUpdate_reg (s : State) (p : Word) (r : RegId) : (s.pcUpdate p).reg r = s.reg r := by
  simp [State.reg]

/-- PC after the PC update (R119). -/
theorem State.pcUpdate_pc (s : State) (p : Word) : (s.pcUpdate p).pc = if s.stat = .AOK then p else s.pc := by
  unfold State.pcUpdate; split <;> simp_all

/-- While STAT is AOK the PC update takes effect. -/
theorem State.pcUpdate_pc_of_AOK {s : State} (h : s.stat = .AOK) (p : Word) : (s.pcUpdate p).pc = p := by
  rw [State.pcUpdate_pc, if_pos h]

/-- Once STAT is not AOK the PC update is inhibited (R236). -/
theorem State.pcUpdate_pc_of_ne_AOK {s : State} (h : s.stat ≠ .AOK) (p : Word) : (s.pcUpdate p).pc = s.pc := by
  rw [State.pcUpdate_pc, if_neg h]

/-! ### Store -/

/-- A store either writes its eight bytes, all inside memory, or raises ADR and writes nothing (R54, R117). -/
theorem State.store_cases (s : State) (a v : Word) :
    (inRange8 a = true ∧ s.store a v = s.setMem (s.mem.writeBytes a.toNat (wordBytes v))) ∨
    (inRange8 a = false ∧ s.store a v = s.raise .ADR) := by
  by_cases h : inRange8 a = true
  · exact .inl ⟨h, by simp [State.store, Memory.write8, h]⟩
  · simp only [Bool.not_eq_true] at h
    exact .inr ⟨h, by simp [State.store, Memory.write8, h]⟩

@[simp] theorem State.store_pc (s : State) (a v : Word) : (s.store a v).pc = s.pc := by
  obtain ⟨-, h⟩ | ⟨-, h⟩ := s.store_cases a v <;> simp [h]

@[simp] theorem State.store_regs (s : State) (a v : Word) : (s.store a v).regs = s.regs := by
  obtain ⟨-, h⟩ | ⟨-, h⟩ := s.store_cases a v <;> simp [h]

@[simp] theorem State.store_cc (s : State) (a v : Word) : (s.store a v).cc = s.cc := by
  obtain ⟨-, h⟩ | ⟨-, h⟩ := s.store_cases a v <;> simp [h]

@[simp] theorem State.store_draws (s : State) (a v : Word) : (s.store a v).draws = s.draws := by
  obtain ⟨-, h⟩ | ⟨-, h⟩ := s.store_cases a v <;> simp [h]

@[simp] theorem State.store_reg (s : State) (a v : Word) (r : RegId) : (s.store a v).reg r = s.reg r := by
  simp [State.reg]

theorem State.store_stat (s : State) (a v : Word) :
    (s.store a v).stat = if inRange8 a = true then s.stat else .ADR := by
  obtain ⟨h, e⟩ | ⟨h, e⟩ := s.store_cases a v <;> simp [h, e]

/-- A store keeps the canonical form of memory. -/
theorem State.store_wf (s : State) (a v : Word) (h : s.mem.wf = true) : (s.store a v).mem.wf = true := by
  obtain ⟨hr, e⟩ | ⟨-, e⟩ := s.store_cases a v
  · rw [e, State.setMem_mem]
    exact Memory.wf_writeBytes h _ _ (by simpa using (inRange8_iff_add a).1 hr)
  · rw [e, State.raise_mem]
    exact h

/-! ### Load -/

/-- A load either delivers the eight bytes and changes nothing, or delivers 0 and raises ADR (R53, R117). -/
theorem State.load_cases (s : State) (a : Word) :
    (inRange8 a = true ∧ s.load a = s ∧ s.loadValue a = le64 (s.mem.readBytes a.toNat 8)) ∨
    (inRange8 a = false ∧ s.load a = s.raise .ADR ∧ s.loadValue a = 0) := by
  by_cases h : inRange8 a = true
  · exact .inl ⟨h, by simp [State.load, Memory.read8, h], by simp [State.loadValue, Memory.read8, h]⟩
  · simp only [Bool.not_eq_true] at h
    exact .inr ⟨h, by simp [State.load, Memory.read8, h], by simp [State.loadValue, Memory.read8, h]⟩

@[simp] theorem State.load_pc (s : State) (a : Word) : (s.load a).pc = s.pc := by
  obtain ⟨-, h, -⟩ | ⟨-, h, -⟩ := s.load_cases a <;> simp [h]

@[simp] theorem State.load_regs (s : State) (a : Word) : (s.load a).regs = s.regs := by
  obtain ⟨-, h, -⟩ | ⟨-, h, -⟩ := s.load_cases a <;> simp [h]

@[simp] theorem State.load_cc (s : State) (a : Word) : (s.load a).cc = s.cc := by
  obtain ⟨-, h, -⟩ | ⟨-, h, -⟩ := s.load_cases a <;> simp [h]

@[simp] theorem State.load_mem (s : State) (a : Word) : (s.load a).mem = s.mem := by
  obtain ⟨-, h, -⟩ | ⟨-, h, -⟩ := s.load_cases a <;> simp [h]

@[simp] theorem State.load_draws (s : State) (a : Word) : (s.load a).draws = s.draws := by
  obtain ⟨-, h, -⟩ | ⟨-, h, -⟩ := s.load_cases a <;> simp [h]

@[simp] theorem State.load_reg (s : State) (a : Word) (r : RegId) : (s.load a).reg r = s.reg r := by
  simp [State.reg]

theorem State.load_stat (s : State) (a : Word) :
    (s.load a).stat = if inRange8 a = true then s.stat else .ADR := by
  obtain ⟨h, e, -⟩ | ⟨h, e, -⟩ := s.load_cases a <;> simp [h, e]

end Sys2Proof.Machine
end

