-- ==== Sys2Proof/Laws/Families.lean ====
section
/-! SUPPORT. What the shared effects of the instruction families do to each field of the state. -/

namespace Sys2Proof.Machine

/-! ### Class RRMOVQ -/

/-- A conditional move either copies or only moves PC (R115, R118). -/
theorem State.condMove_cases (s : State) (c : Cond) (rA rB : RegId) :
    (condHolds c s.cc = true ∧ s.condMove c rA rB = (s.setReg rB (s.reg rA)).pcUpdate (s.valP 2)) ∨
    (condHolds c s.cc = false ∧ s.condMove c rA rB = s.pcUpdate (s.valP 2)) := by
  unfold State.condMove
  cases condHolds c s.cc
  · exact .inr ⟨rfl, rfl⟩
  · exact .inl ⟨rfl, rfl⟩

@[simp] theorem State.condMove_cc (s : State) (c : Cond) (rA rB : RegId) : (s.condMove c rA rB).cc = s.cc := by
  obtain ⟨-, h⟩ | ⟨-, h⟩ := s.condMove_cases c rA rB <;> simp [h]

@[simp] theorem State.condMove_stat (s : State) (c : Cond) (rA rB : RegId) : (s.condMove c rA rB).stat = s.stat := by
  obtain ⟨-, h⟩ | ⟨-, h⟩ := s.condMove_cases c rA rB <;> simp [h]

@[simp] theorem State.condMove_mem (s : State) (c : Cond) (rA rB : RegId) : (s.condMove c rA rB).mem = s.mem := by
  obtain ⟨-, h⟩ | ⟨-, h⟩ := s.condMove_cases c rA rB <;> simp [h]

@[simp] theorem State.condMove_draws (s : State) (c : Cond) (rA rB : RegId) :
    (s.condMove c rA rB).draws = s.draws := by
  obtain ⟨-, h⟩ | ⟨-, h⟩ := s.condMove_cases c rA rB <;> simp [h]

theorem State.condMove_pc (s : State) (c : Cond) (rA rB : RegId) :
    (s.condMove c rA rB).pc = if s.stat = .AOK then s.valP 2 else s.pc := by
  obtain ⟨-, h⟩ | ⟨-, h⟩ := s.condMove_cases c rA rB <;> exact h ▸ State.pcUpdate_pc _ _

theorem State.condMove_reg (s : State) (c : Cond) (rA rB q : RegId) :
    (s.condMove c rA rB).reg q = if condHolds c s.cc = true ∧ q = rB ∧ rB ≠ .NONE then s.reg rA else s.reg q := by
  obtain ⟨hc, h⟩ | ⟨hc, h⟩ := s.condMove_cases c rA rB <;> simp [h, hc, State.setReg_reg]

/-! ### Class OPQ -/

@[simp] theorem State.opq_cc (s : State) (rB : RegId) (e : Word) (o : Bool) :
    (s.opq rB e o).cc = .ofResult e o := by
  simp [State.opq]

@[simp] theorem State.opq_stat (s : State) (rB : RegId) (e : Word) (o : Bool) : (s.opq rB e o).stat = s.stat := by
  simp [State.opq]

@[simp] theorem State.opq_mem (s : State) (rB : RegId) (e : Word) (o : Bool) : (s.opq rB e o).mem = s.mem := by
  simp [State.opq]

@[simp] theorem State.opq_draws (s : State) (rB : RegId) (e : Word) (o : Bool) :
    (s.opq rB e o).draws = s.draws := by
  simp [State.opq]

theorem State.opq_pc (s : State) (rB : RegId) (e : Word) (o : Bool) :
    (s.opq rB e o).pc = if s.stat = .AOK then s.valP 2 else s.pc :=
  State.pcUpdate_pc _ _

theorem State.opq_reg (s : State) (rB q : RegId) (e : Word) (o : Bool) :
    (s.opq rB e o).reg q = if q = rB ∧ rB ≠ .NONE then e else s.reg q := by
  simp [State.opq, State.setReg_reg]

/-- A reserved OPQ is an OPQ of some result and some overflow flag, with a draw counted (R175). -/
theorem State.opqReserved_eq (s : State) (rB : RegId) : ∃ e o, s.opqReserved rB = (s.opq rB e o).draw :=
  ⟨_, _, rfl⟩

/-! ### Class JXX -/

@[simp] theorem State.jump_regs (s : State) (c : Cond) (d : Word) : (s.jump c d).regs = s.regs := by
  simp [State.jump]

@[simp] theorem State.jump_reg (s : State) (c : Cond) (d : Word) (r : RegId) : (s.jump c d).reg r = s.reg r := by
  simp [State.jump]

@[simp] theorem State.jump_cc (s : State) (c : Cond) (d : Word) : (s.jump c d).cc = s.cc := by
  simp [State.jump]

@[simp] theorem State.jump_stat (s : State) (c : Cond) (d : Word) : (s.jump c d).stat = s.stat := by
  simp [State.jump]

@[simp] theorem State.jump_mem (s : State) (c : Cond) (d : Word) : (s.jump c d).mem = s.mem := by
  simp [State.jump]

theorem State.jump_pc (s : State) (c : Cond) (d : Word) :
    (s.jump c d).pc = if s.stat = .AOK then (if condHolds c s.cc then d else s.valP 9) else s.pc :=
  State.pcUpdate_pc _ _

end Sys2Proof.Machine
end

