-- ==== Sys2Proof/Laws/Fetch.lean ====
section
/-! SUPPORT. What Fetch can do: the window it reads, and its outcome. -/

namespace Sys2Proof

/-- The constant is read back from the bytes of a value, whatever follows them (R83). -/
theorem takeConst_wordBytes_append (v : Word) (rest : List Byte) : takeConst (wordBytes v ++ rest) = .ok (v, rest) := by
  simp [takeConst, List.take_left', List.drop_left']

namespace Machine

/-- The window holds ten bytes, or what is left of memory. -/
theorem State.length_fetchWindow (s : State) :
    s.fetchWindow.length = min Config.maxLength (Config.memSize - s.pc.toNat) := by
  simp [State.fetchWindow]

/-- With PC inside memory the window starts with the byte at PC. -/
theorem State.fetchWindow_eq_cons {s : State} (h : s.pc.toNat < Config.memSize) :
    ∃ rest, s.fetchWindow = s.mem.readByte s.pc.toNat :: rest := by
  obtain ⟨n, hn⟩ : ∃ n, min Config.maxLength (Config.memSize - s.pc.toNat) = n + 1 :=
    ⟨min Config.maxLength (Config.memSize - s.pc.toNat) - 1, by simp only [Config.maxLength]; omega⟩
  exact ⟨_, by rw [State.fetchWindow, hn]; rfl⟩

/-- Fetch decodes its window when PC is inside memory, and fails when it is not (R111 F1). -/
theorem State.fetch_cases (s : State) :
    (s.pc.toNat < Config.memSize ∧
      ((∃ i rest, decode s.fetchWindow = .ok (i, rest) ∧ s.fetch = .ok i) ∨
        (∃ e, decode s.fetchWindow = .error e ∧ s.fetch = .error e))) ∨
    (Config.memSize ≤ s.pc.toNat ∧ s.fetch = .error .noOpcode) := by
  by_cases h : inRange1 s.pc = true
  · refine .inl ⟨(inRange1_iff _).1 h, ?_⟩
    cases hd : decode s.fetchWindow with
    | ok r => exact .inl ⟨r.1, r.2, rfl, by simp [State.fetch, h, hd]⟩
    | error e => exact .inr ⟨e, rfl, by simp [State.fetch, h, hd]⟩
  · refine .inr ⟨?_, by simp [State.fetch, h]⟩
    exact Nat.le_of_not_lt fun hlt => h ((inRange1_iff _).2 hlt)

end Machine

end Sys2Proof
end

