-- ==== Sys2Proof/Laws/PerInstr.lean ====
section
/-! SUPPORT. Facts about every instruction as syntax, one lemma per constructor. -/

/-- An encoding begins with a byte that tells its length (R84). -/
def Sys2Proof.Laws.EncodeLength.Statement (i : Sys2Proof.Instr) : Prop :=
  i.wf = true → ∃ b0 rest, Sys2Proof.encode i = b0 :: rest ∧ rest.length + 1 = Sys2Proof.opcodeLength b0

namespace Sys2Proof.Laws

/-- The four formats have their class's length, whatever the fields hold. -/
theorem encodeLength_of_class {bs : List Byte} {b0 : Byte} {rest : List Byte} (c : IClass) {ifun : Nibble}
    (h : bs = b0 :: rest) (hb : b0 = nibbles c.toNibble ifun) (hl : rest.length + 1 = c.length) :
    ∃ b0 rest, bs = b0 :: rest ∧ rest.length + 1 = opcodeLength b0 :=
  ⟨b0, rest, h, by simp [opcodeLength, hb, hl]⟩

theorem EncodeLength.halt (ifun : Nibble) : EncodeLength.Statement (.halt ifun) :=
  fun _ => encodeLength_of_class .HALT rfl rfl rfl

theorem EncodeLength.nop (ifun : Nibble) : EncodeLength.Statement (.nop ifun) :=
  fun _ => encodeLength_of_class .NOP rfl rfl rfl

theorem EncodeLength.rrmovq (rA rB : RegId) : EncodeLength.Statement (.rrmovq rA rB) :=
  fun _ => encodeLength_of_class .RRMOVQ rfl rfl rfl

theorem EncodeLength.cmovle (rA rB : RegId) : EncodeLength.Statement (.cmovle rA rB) :=
  fun _ => encodeLength_of_class .RRMOVQ rfl rfl rfl

theorem EncodeLength.cmovl (rA rB : RegId) : EncodeLength.Statement (.cmovl rA rB) :=
  fun _ => encodeLength_of_class .RRMOVQ rfl rfl rfl

theorem EncodeLength.cmove (rA rB : RegId) : EncodeLength.Statement (.cmove rA rB) :=
  fun _ => encodeLength_of_class .RRMOVQ rfl rfl rfl

theorem EncodeLength.cmovne (rA rB : RegId) : EncodeLength.Statement (.cmovne rA rB) :=
  fun _ => encodeLength_of_class .RRMOVQ rfl rfl rfl

theorem EncodeLength.cmovge (rA rB : RegId) : EncodeLength.Statement (.cmovge rA rB) :=
  fun _ => encodeLength_of_class .RRMOVQ rfl rfl rfl

theorem EncodeLength.cmovg (rA rB : RegId) : EncodeLength.Statement (.cmovg rA rB) :=
  fun _ => encodeLength_of_class .RRMOVQ rfl rfl rfl

theorem EncodeLength.reservedCmov7 (rA rB : RegId) : EncodeLength.Statement (.reservedCmov7 rA rB) :=
  fun _ => encodeLength_of_class .RRMOVQ rfl rfl rfl

theorem EncodeLength.reservedCmov8to15 (ifun : Nibble) (rA rB : RegId) : EncodeLength.Statement (.reservedCmov8to15 ifun rA rB) :=
  fun _ => encodeLength_of_class .RRMOVQ rfl rfl rfl

theorem EncodeLength.irmovq (ifun : Nibble) (rA rB : RegId) (valC : Word) : EncodeLength.Statement (.irmovq ifun rA rB valC) :=
  fun _ => encodeLength_of_class .IRMOVQ rfl rfl rfl

theorem EncodeLength.rmmovq (ifun : Nibble) (rA rB : RegId) (valC : Word) : EncodeLength.Statement (.rmmovq ifun rA rB valC) :=
  fun _ => encodeLength_of_class .RMMOVQ rfl rfl rfl

theorem EncodeLength.mrmovq (ifun : Nibble) (rA rB : RegId) (valC : Word) : EncodeLength.Statement (.mrmovq ifun rA rB valC) :=
  fun _ => encodeLength_of_class .MRMOVQ rfl rfl rfl

theorem EncodeLength.addq (rA rB : RegId) : EncodeLength.Statement (.addq rA rB) :=
  fun _ => encodeLength_of_class .OPQ rfl rfl rfl

theorem EncodeLength.subq (rA rB : RegId) : EncodeLength.Statement (.subq rA rB) :=
  fun _ => encodeLength_of_class .OPQ rfl rfl rfl

theorem EncodeLength.andq (rA rB : RegId) : EncodeLength.Statement (.andq rA rB) :=
  fun _ => encodeLength_of_class .OPQ rfl rfl rfl

theorem EncodeLength.xorq (rA rB : RegId) : EncodeLength.Statement (.xorq rA rB) :=
  fun _ => encodeLength_of_class .OPQ rfl rfl rfl

theorem EncodeLength.reservedOpq4to7 (ifun : Nibble) (rA rB : RegId) : EncodeLength.Statement (.reservedOpq4to7 ifun rA rB) :=
  fun _ => encodeLength_of_class .OPQ rfl rfl rfl

theorem EncodeLength.reservedOpq8to15 (ifun : Nibble) (rA rB : RegId) : EncodeLength.Statement (.reservedOpq8to15 ifun rA rB) :=
  fun _ => encodeLength_of_class .OPQ rfl rfl rfl

theorem EncodeLength.jmp (dest : Word) : EncodeLength.Statement (.jmp dest) :=
  fun _ => encodeLength_of_class .JXX rfl rfl rfl

theorem EncodeLength.jle (dest : Word) : EncodeLength.Statement (.jle dest) :=
  fun _ => encodeLength_of_class .JXX rfl rfl rfl

theorem EncodeLength.jl (dest : Word) : EncodeLength.Statement (.jl dest) :=
  fun _ => encodeLength_of_class .JXX rfl rfl rfl

theorem EncodeLength.je (dest : Word) : EncodeLength.Statement (.je dest) :=
  fun _ => encodeLength_of_class .JXX rfl rfl rfl

theorem EncodeLength.jne (dest : Word) : EncodeLength.Statement (.jne dest) :=
  fun _ => encodeLength_of_class .JXX rfl rfl rfl

theorem EncodeLength.jge (dest : Word) : EncodeLength.Statement (.jge dest) :=
  fun _ => encodeLength_of_class .JXX rfl rfl rfl

theorem EncodeLength.jg (dest : Word) : EncodeLength.Statement (.jg dest) :=
  fun _ => encodeLength_of_class .JXX rfl rfl rfl

theorem EncodeLength.reservedJump7 (dest : Word) : EncodeLength.Statement (.reservedJump7 dest) :=
  fun _ => encodeLength_of_class .JXX rfl rfl rfl

theorem EncodeLength.reservedJump8to15 (ifun : Nibble) (dest : Word) : EncodeLength.Statement (.reservedJump8to15 ifun dest) :=
  fun _ => encodeLength_of_class .JXX rfl rfl rfl

theorem EncodeLength.call (ifun : Nibble) (dest : Word) : EncodeLength.Statement (.call ifun dest) :=
  fun _ => encodeLength_of_class .CALL rfl rfl rfl

theorem EncodeLength.ret (ifun : Nibble) : EncodeLength.Statement (.ret ifun) :=
  fun _ => encodeLength_of_class .RET rfl rfl rfl

theorem EncodeLength.pushq (ifun : Nibble) (rA rB : RegId) : EncodeLength.Statement (.pushq ifun rA rB) :=
  fun _ => encodeLength_of_class .PUSHQ rfl rfl rfl

theorem EncodeLength.popq (ifun : Nibble) (rA rB : RegId) : EncodeLength.Statement (.popq ifun rA rB) :=
  fun _ => encodeLength_of_class .POPQ rfl rfl rfl

theorem EncodeLength.illegal (byte0 : Byte) : EncodeLength.Statement (.illegal byte0) := by
  intro h
  have hb : 0xC0 ≤ byte0.toNat := by simpa [Instr.wf] using h
  exact ⟨byte0, [], rfl, by simp [opcodeLength, (IClass.ofNibble_highNibble_eq_none byte0).2 hb]⟩

end Sys2Proof.Laws
end

