-- ==== Sys2Proof/Laws/Run.lean ====
section
/-! SUPPORT. The loader keeps the canonical form, what it means not to have stopped, and one turn of the run loop. -/

namespace Sys2Proof.Machine

/-- Loading an image keeps the canonical form. -/
theorem Memory.wf_loadImage {m : Memory} (h : m.wf = true) (image : List (Nat × List Byte)) :
    (m.loadImage image).wf = true := by
  induction image generalizing m with
  | nil => exact h
  | cons line lines ih => exact ih (Memory.wf_loadBytes h line.1 line.2)

/-- Setting STAT to AOK changes nothing when it is AOK already. -/
theorem State.raise_AOK_of_AOK {s : State} (h : s.stat = .AOK) : s.raise .AOK = s := by
  cases s
  subst h
  rfl

/-- A machine that has not stopped has STAT = AOK and PC inside memory (R121). -/
theorem State.stopped_eq_false {s : State} : s.stopped = false ↔ s.stat = .AOK ∧ s.pc.toNat < Config.memSize := by
  simp [State.stopped, inRange1_iff]

/-- One turn of the loop: the step's record, then the rest unless the machine has stopped (R120). -/
theorem loop_succ_of_next (fuel : Nat) {s t : State} (h : step s = .next t) :
    loop (fuel + 1) s = t :: (if t.stopped then [] else loop fuel t) := by
  simp only [loop, h]

end Sys2Proof.Machine
end

