-- ==== Sys2Proof/Laws/Step.lean ====
section
/-! SUPPORT. What a step can do. -/

namespace Sys2Proof.Machine

/-- A step that answers a next state is from STAT = AOK, and is the fetched instruction or a Fetch ADR (R110, R111). -/
theorem step_cases {s t : State} (h : step s = .next t) :
    s.stat = .AOK ∧ ((∃ i, s.fetch = .ok i ∧ exec i s = .next t) ∨ (∃ e, s.fetch = .error e ∧ t = s.raise .ADR)) := by
  unfold step at h
  split at h
  · refine ⟨by assumption, ?_⟩
    split at h
    · exact .inl ⟨_, by assumption, h⟩
    · exact .inr ⟨_, by assumption, (Host.Outcome.next.inj h).symm⟩
  all_goals cases h

/-- From STAT = AOK a step whose fetch succeeds is the fetched instruction. -/
theorem step_of_fetch_ok {s : State} {i : Instr} (h : s.stat = .AOK) (hf : s.fetch = .ok i) : step s = exec i s := by
  simp only [step, h, hf]

/-- From STAT = AOK a step whose fetch fails is a Fetch ADR (R111). -/
theorem step_of_fetch_error {s : State} {e : DecodeError} (h : s.stat = .AOK) (hf : s.fetch = .error e) :
    step s = .next (s.raise .ADR) := by
  simp only [step, h, hf]

end Sys2Proof.Machine
end

