-- ==== Sys2Proof/Tests/Slice0.lean ====
section
/-! SUPPORT. The model's own tests: well-formedness, decoding of words written out from the spec, single steps against
spec/95_test_vectors.md, and a witness for the hypotheses of each statement. -/

namespace Sys2Proof.Tests

open Sys2Proof.Machine

/-! ### Helpers -/

/-- Reset with PC set, bytes loaded at PC, and some registers set. -/
def state (pc : Word) (bytes : List Byte) (regs : List (RegId × Word)) : State :=
  regs.foldl (fun s (r, v) => s.setReg r v)
    { State.reset with pc := pc, mem := State.reset.mem.loadBytes pc.toNat bytes }

/-- A state with a word of memory set. -/
def withWord (s : State) (a v : Word) : State := s.store a v

/-- A state with the flags set. -/
def withFlags (s : State) (z sf o : Bool) : State := s.setFlags { zf := z, sf := sf, of := o }

/-- The outcome is a next state with a property. -/
def after (o : Host.Outcome State Fault Refusal) (p : State → Bool) : Bool :=
  match o with
  | .next t => p t
  | .fault _ | .refused _ => false

/-- The next state after one step has this PC and STAT, these changes of registers and no others, these flags, and the
memory of a reference state. -/
def stepGives (s : State) (pc : Word) (stat : Stat) (changed : List (RegId × Word)) (cc : Flags) (mem : Memory) :
    Bool :=
  after (step s) fun t =>
    decide (t.pc = pc ∧ t.stat = stat ∧ t.regs = (changed.foldl (fun s (r, v) => s.setReg r v) s).regs ∧ t.cc = cc ∧
      t.mem = mem)

/-- As `stepGives`, with flags and memory unchanged. -/
def moves (s : State) (pc : Word) (stat : Stat) (changed : List (RegId × Word)) : Bool :=
  stepGives s pc stat changed s.cc s.mem

/-! ### Well-formedness: one ill-formed term per check -/

theorem test_wf_reservedCmov8to15 : (Instr.reservedCmov8to15 7 .rax .rbx).wf = false := by decide
theorem test_wf_reservedOpq4to7_low : (Instr.reservedOpq4to7 3 .rax .rbx).wf = false := by decide
theorem test_wf_reservedOpq4to7_high : (Instr.reservedOpq4to7 8 .rax .rbx).wf = false := by decide
theorem test_wf_reservedOpq8to15 : (Instr.reservedOpq8to15 7 .rax .rbx).wf = false := by decide
theorem test_wf_reservedJump8to15 : (Instr.reservedJump8to15 7 0x400).wf = false := by decide
theorem test_wf_illegal : (Instr.illegal 0xBF).wf = false := by decide
theorem test_wf_accepts_boundaries :
    (Instr.reservedCmov8to15 8 .rax .rbx).wf = true ∧ (Instr.reservedOpq4to7 4 .rax .rbx).wf = true ∧
    (Instr.reservedOpq4to7 7 .rax .rbx).wf = true ∧ (Instr.reservedOpq8to15 8 .rax .rbx).wf = true ∧
    (Instr.reservedJump8to15 8 0).wf = true ∧ (Instr.illegal 0xC0).wf = true := by decide

/-! ### Decoding: one word per constructor, written out from the tables of spec/30_encoding.md -/

theorem test_decode_halt : decode [0x0f] = .ok (.halt 15, []) := by decide
theorem test_decode_nop : decode [0x15] = .ok (.nop 5, []) := by decide
theorem test_decode_rrmovq : decode [0x20, 0x73] = .ok (.rrmovq .rdi .rbx, []) := by decide
theorem test_decode_cmovle : decode [0x21, 0x73] = .ok (.cmovle .rdi .rbx, []) := by decide
theorem test_decode_cmovl : decode [0x22, 0x73] = .ok (.cmovl .rdi .rbx, []) := by decide
theorem test_decode_cmove : decode [0x23, 0x73] = .ok (.cmove .rdi .rbx, []) := by decide
theorem test_decode_cmovne : decode [0x24, 0x73] = .ok (.cmovne .rdi .rbx, []) := by decide
theorem test_decode_cmovge : decode [0x25, 0x73] = .ok (.cmovge .rdi .rbx, []) := by decide
theorem test_decode_cmovg : decode [0x26, 0x73] = .ok (.cmovg .rdi .rbx, []) := by decide
theorem test_decode_reservedCmov7 : decode [0x27, 0x73] = .ok (.reservedCmov7 .rdi .rbx, []) := by decide
theorem test_decode_reservedCmov8to15 : decode [0x2f, 0x03] = .ok (.reservedCmov8to15 15 .rax .rbx, []) := by decide
theorem test_decode_irmovq : decode [0x3a, 0x21, 0x88, 0x77, 0x66, 0x55, 0x44, 0x33, 0x22, 0x11] = .ok (.irmovq 10 .rdx .rcx 0x1122334455667788, []) := by decide
theorem test_decode_rmmovq : decode [0x40, 0x8e, 0x88, 0x77, 0x66, 0x55, 0x44, 0x33, 0x22, 0x11] = .ok (.rmmovq 0 .r8 .r14 0x1122334455667788, []) := by decide
theorem test_decode_mrmovq : decode [0x50, 0x1f, 0x88, 0x77, 0x66, 0x55, 0x44, 0x33, 0x22, 0x11] = .ok (.mrmovq 0 .rcx .NONE 0x1122334455667788, []) := by decide
theorem test_decode_addq : decode [0x60, 0x45] = .ok (.addq .rsp .rbp, []) := by decide
theorem test_decode_subq : decode [0x61, 0x45] = .ok (.subq .rsp .rbp, []) := by decide
theorem test_decode_andq : decode [0x62, 0x45] = .ok (.andq .rsp .rbp, []) := by decide
theorem test_decode_xorq : decode [0x63, 0x45] = .ok (.xorq .rsp .rbp, []) := by decide
theorem test_decode_reservedOpq4to7 : decode [0x64, 0x69] = .ok (.reservedOpq4to7 4 .rsi .r9, []) := by decide
theorem test_decode_reservedOpq8to15 : decode [0x6f, 0xab] = .ok (.reservedOpq8to15 15 .r10 .r11, []) := by decide
theorem test_decode_jmp : decode [0x70, 0x88, 0x77, 0x66, 0x55, 0x44, 0x33, 0x22, 0x11] = .ok (.jmp 0x1122334455667788, []) := by decide
theorem test_decode_jle : decode [0x71, 0x88, 0x77, 0x66, 0x55, 0x44, 0x33, 0x22, 0x11] = .ok (.jle 0x1122334455667788, []) := by decide
theorem test_decode_jl : decode [0x72, 0x88, 0x77, 0x66, 0x55, 0x44, 0x33, 0x22, 0x11] = .ok (.jl 0x1122334455667788, []) := by decide
theorem test_decode_je : decode [0x73, 0x88, 0x77, 0x66, 0x55, 0x44, 0x33, 0x22, 0x11] = .ok (.je 0x1122334455667788, []) := by decide
theorem test_decode_jne : decode [0x74, 0x88, 0x77, 0x66, 0x55, 0x44, 0x33, 0x22, 0x11] = .ok (.jne 0x1122334455667788, []) := by decide
theorem test_decode_jge : decode [0x75, 0x88, 0x77, 0x66, 0x55, 0x44, 0x33, 0x22, 0x11] = .ok (.jge 0x1122334455667788, []) := by decide
theorem test_decode_jg : decode [0x76, 0x88, 0x77, 0x66, 0x55, 0x44, 0x33, 0x22, 0x11] = .ok (.jg 0x1122334455667788, []) := by decide
theorem test_decode_reservedJump7 : decode [0x77, 0x88, 0x77, 0x66, 0x55, 0x44, 0x33, 0x22, 0x11] = .ok (.reservedJump7 0x1122334455667788, []) := by decide
theorem test_decode_reservedJump8to15 : decode [0x78, 0x88, 0x77, 0x66, 0x55, 0x44, 0x33, 0x22, 0x11] = .ok (.reservedJump8to15 8 0x1122334455667788, []) := by decide
theorem test_decode_call : decode [0x80, 0x88, 0x77, 0x66, 0x55, 0x44, 0x33, 0x22, 0x11] = .ok (.call 0 0x1122334455667788, []) := by decide
theorem test_decode_ret : decode [0x90] = .ok (.ret 0, []) := by decide
theorem test_decode_pushq : decode [0xa0, 0xcf] = .ok (.pushq 0 .r12 .NONE, []) := by decide
theorem test_decode_popq : decode [0xb0, 0xdf] = .ok (.popq 0 .r13 .NONE, []) := by decide
theorem test_decode_illegal : decode [0xc0] = .ok (.illegal 0xC0, []) ∧ decode [0xff, 0x00] = .ok (.illegal 0xFF, [0x00]) := by
  decide

/-- Bytes that end too early are refused, each under its own name. -/
theorem test_decode_refuses :
    decode [] = .error .noOpcode ∧ decode [0x60] = .error .noRegisterByte ∧ decode [0x30] = .error .noRegisterByte ∧
    decode [0x30, 0xf0, 0, 0, 0, 0, 0, 0, 0] = .error .noConstant ∧
    decode [0x70, 0, 0, 0, 0, 0, 0, 0] = .error .noConstant := by decide

/-- The host's numbering: byte 0 is the low byte of the word; bits above `nbits` are 0. -/
theorem test_decodeTableWord :
    decodeTableWord 16 0x7320 = some (.rrmovq .rdi .rbx) ∧ decodeTableWord 80 0x30 = some (.irmovq 0 .rax .rax 0) ∧
    decodeTableWord 8 0xFF30 = some (.irmovq 0 .rax .rax 0) ∧ decodeTableWord 8 0xC0 = some (.illegal 0xC0) := by decide

/-- The placed instruction is what the next step runs: `irmovq $5,%rax`. -/
theorem test_withFetchWord :
    after (step (State.reset.withFetchWord 80 0x5F030)) (fun t => decide (t.pc = 10 ∧ t.reg .rax = 5)) = true := by decide

/-! ### Single steps: the vectors of spec/95_test_vectors.md, by their ids -/

theorem test_halt_V_HN_2 :
    moves (state 0 [0x0f] []) 0 .HLT [] = true := by decide
theorem test_nop_V_HN_4 :
    moves (state 0 [0x15] []) 1 .AOK [] = true := by decide
theorem test_nop_V_HN_5 :
    moves (state 0xFFFF [0x10] []) 0x10000 .AOK [] = true := by decide
theorem test_illegal_V_HN_7 :
    moves (state 0 [0xff] []) 0 .INS [] = true := by decide
theorem test_illegal_V_HN_8 :
    moves (state 0xFFFF [0xc0] []) 0xFFFF .INS [] = true := by decide
theorem test_rrmovq_V_MOV_1 :
    moves (state 0 [0x20, 0x73] [(.rdi, 7)]) 2 .AOK [(.rbx, 7)] = true := by decide
theorem test_rrmovq_V_MOV_3 :
    moves (state 0 [0x20, 0xf3] [(.rbx, 9)]) 2 .AOK [(.rbx, 0)] = true := by decide
theorem test_reservedCmov7_V_MOV_4 :
    moves (state 0 [0x27, 0x03] [(.rax, 5)]) 2 .AOK [] = true := by decide
theorem test_reservedCmov8to15_V_MOV_5 :
    moves (state 0 [0x2f, 0x03] [(.rax, 5)]) 2 .AOK [] = true := by decide
theorem test_irmovq_V_MOV_7 :
    moves (state 0 [0x3a, 0x21, 0x42, 0, 0, 0, 0, 0, 0, 0] []) 0xA .AOK [(.rcx, 0x42)] = true := by decide
theorem test_irmovq_V_FET_2 :
    moves (state 0xFFF6 [0x30, 0xf0, 5, 0, 0, 0, 0, 0, 0, 0] []) 0x10000 .AOK [(.rax, 5)] = true := by decide

/-- V-CND: the table of section 2.2, row by row (ZF, SF, OF; then the conditions le, l, e, ne, ge, g). -/
theorem test_condition_table :
    ([((false, false, false), [false, false, false, true, true, true]),
      ((false, false, true), [true, true, false, true, false, false]),
      ((false, true, false), [true, true, false, true, false, false]),
      ((false, true, true), [false, false, false, true, true, true]),
      ((true, false, false), [true, false, true, false, true, false]),
      ((true, false, true), [true, true, true, false, false, false]),
      ((true, true, false), [true, true, true, false, false, false]),
      ((true, true, true), [true, false, true, false, true, false])].all
      fun ((z, s, o), row) =>
        decide ([Cond.le, .l, .e, .ne, .ge, .g].map (fun c => condHolds c { zf := z, sf := s, of := o }) = row) &&
        condHolds .always { zf := z, sf := s, of := o } && !condHolds .never { zf := z, sf := s, of := o }) = true := by
  decide

theorem test_cmovle_V_CND :
    moves (withFlags (state 0 [0x21, 0x01] [(.rax, 9)]) false true false) 2 .AOK [(.rcx, 9)] = true ∧
    moves (withFlags (state 0 [0x21, 0x01] [(.rax, 9)]) false false false) 2 .AOK [] = true := by decide
theorem test_jle_V_CND :
    moves (withFlags (state 0 [0x71, 0x00, 0x04, 0, 0, 0, 0, 0, 0] []) false true false) 0x400 .AOK [] = true ∧
    moves (withFlags (state 0 [0x71, 0x00, 0x04, 0, 0, 0, 0, 0, 0] []) false false false) 9 .AOK [] = true := by decide
theorem test_cmovl_V_CND :
    moves (withFlags (state 0 [0x22, 0x01] [(.rax, 9)]) false false true) 2 .AOK [(.rcx, 9)] = true ∧
    moves (withFlags (state 0 [0x22, 0x01] [(.rax, 9)]) true false false) 2 .AOK [] = true := by decide
theorem test_jl_V_CND :
    moves (withFlags (state 0 [0x72, 0x00, 0x04, 0, 0, 0, 0, 0, 0] []) false false true) 0x400 .AOK [] = true ∧
    moves (withFlags (state 0 [0x72, 0x00, 0x04, 0, 0, 0, 0, 0, 0] []) true false false) 9 .AOK [] = true := by decide
theorem test_cmove_V_CND :
    moves (withFlags (state 0 [0x23, 0x01] [(.rax, 9)]) true false false) 2 .AOK [(.rcx, 9)] = true ∧
    moves (withFlags (state 0 [0x23, 0x01] [(.rax, 9)]) false true false) 2 .AOK [] = true := by decide
theorem test_je_V_CND :
    moves (withFlags (state 0 [0x73, 0x00, 0x04, 0, 0, 0, 0, 0, 0] []) true false false) 0x400 .AOK [] = true ∧
    moves (withFlags (state 0 [0x73, 0x00, 0x04, 0, 0, 0, 0, 0, 0] []) false true false) 9 .AOK [] = true := by decide
theorem test_cmovne_V_CND :
    moves (withFlags (state 0 [0x24, 0x01] [(.rax, 9)]) false true false) 2 .AOK [(.rcx, 9)] = true ∧
    moves (withFlags (state 0 [0x24, 0x01] [(.rax, 9)]) true false true) 2 .AOK [] = true := by decide
theorem test_jne_V_CND :
    moves (withFlags (state 0 [0x74, 0x00, 0x04, 0, 0, 0, 0, 0, 0] []) false true false) 0x400 .AOK [] = true ∧
    moves (withFlags (state 0 [0x74, 0x00, 0x04, 0, 0, 0, 0, 0, 0] []) true false true) 9 .AOK [] = true := by decide
theorem test_cmovge_V_CND :
    moves (withFlags (state 0 [0x25, 0x01] [(.rax, 9)]) false true true) 2 .AOK [(.rcx, 9)] = true ∧
    moves (withFlags (state 0 [0x25, 0x01] [(.rax, 9)]) false false true) 2 .AOK [] = true := by decide
theorem test_jge_V_CND :
    moves (withFlags (state 0 [0x75, 0x00, 0x04, 0, 0, 0, 0, 0, 0] []) false true true) 0x400 .AOK [] = true ∧
    moves (withFlags (state 0 [0x75, 0x00, 0x04, 0, 0, 0, 0, 0, 0] []) false false true) 9 .AOK [] = true := by decide
theorem test_cmovg_V_CND :
    moves (withFlags (state 0 [0x26, 0x01] [(.rax, 9)]) false true true) 2 .AOK [(.rcx, 9)] = true ∧
    moves (withFlags (state 0 [0x26, 0x01] [(.rax, 9)]) true false false) 2 .AOK [] = true := by decide
theorem test_jg_V_CND :
    moves (withFlags (state 0 [0x76, 0x00, 0x04, 0, 0, 0, 0, 0, 0] []) false true true) 0x400 .AOK [] = true ∧
    moves (withFlags (state 0 [0x76, 0x00, 0x04, 0, 0, 0, 0, 0, 0] []) true false false) 9 .AOK [] = true := by decide

theorem test_rmmovq_V_MEM_2 :
    after (step (state 0 [0x40, 0x03, 3, 0, 0, 0, 0, 0, 0, 0] [(.rax, 0x1122334455667788), (.rbx, 0x1000)])) (fun t =>
      decide (t.mem.readBytes 0x1002 10 = [0, 0x88, 0x77, 0x66, 0x55, 0x44, 0x33, 0x22, 0x11, 0] ∧
        t.pc = 10 ∧ t.stat = .AOK)) = true := by decide
theorem test_rmmovq_V_FLT_1 :
    moves (state 0 [0x40, 0x03, 0, 0, 0, 0, 0, 0, 0, 0] [(.rax, 0x1122334455667788), (.rbx, 0xFFF9)]) 0 .ADR [] = true := by decide
theorem test_mrmovq_V_MEM_5 :
    moves (withWord (state 0 [0x50, 0x13, 0, 0, 0, 0, 0, 0, 0, 0] [(.rbx, 0xFFF8), (.rcx, 0x99)]) 0xFFF8 0xDEADBEEFCAFEF00D) 0xA .AOK [(.rcx, 0xDEADBEEFCAFEF00D)] = true := by decide
theorem test_mrmovq_V_FLT_9 :
    moves (state 0 [0x50, 0x13, 0xff, 0xff, 0xff, 0xff, 0xff, 0xff, 0xff, 0x7f] [(.rbx, 1), (.rcx, 0x99)]) 0 .ADR [(.rcx, 0)] = true := by decide
theorem test_addq_V_ADD_2 :
    stepGives (state 0 [0x60, 0x03] [(.rax, 0x7FFFFFFFFFFFFFFF), (.rbx, 1)]) 2 .AOK [(.rbx, 0x8000000000000000)] ⟨false, true, true⟩
      (state 0 [0x60, 0x03] [(.rax, 0x7FFFFFFFFFFFFFFF), (.rbx, 1)]).mem = true := by decide
theorem test_addq_V_ADD_4 :
    stepGives (state 0 [0x60, 0x03] [(.rax, 0x8000000000000000), (.rbx, 0x8000000000000000)]) 2 .AOK [(.rbx, 0)] ⟨true, false, true⟩
      (state 0 [0x60, 0x03] [(.rax, 0x8000000000000000), (.rbx, 0x8000000000000000)]).mem = true := by decide
theorem test_subq_V_SUB_6 :
    stepGives (state 0 [0x61, 0x03] [(.rax, 0x8000000000000000), (.rbx, 0)]) 2 .AOK [(.rbx, 0x8000000000000000)] ⟨false, true, false⟩
      (state 0 [0x61, 0x03] [(.rax, 0x8000000000000000), (.rbx, 0)]).mem = true := by decide
theorem test_subq_V_SUB_9 :
    stepGives (state 0 [0x61, 0x03] [(.rax, 0xFFFFFFFFFFFFFFFF), (.rbx, 0x8000000000000000)]) 2 .AOK [(.rbx, 0x8000000000000001)] ⟨false, true, false⟩
      (state 0 [0x61, 0x03] [(.rax, 0xFFFFFFFFFFFFFFFF), (.rbx, 0x8000000000000000)]).mem = true := by decide
theorem test_andq_V_AND_2 :
    stepGives (state 0 [0x62, 0x03] [(.rax, 0xFFFFFFFFFFFFFFFF), (.rbx, 0x8000000000000000)]) 2 .AOK [(.rbx, 0x8000000000000000)] ⟨false, true, false⟩
      (state 0 [0x62, 0x03] [(.rax, 0xFFFFFFFFFFFFFFFF), (.rbx, 0x8000000000000000)]).mem = true := by decide
theorem test_xorq_V_XOR_2 :
    stepGives (state 0 [0x63, 0x03] [(.rax, 0xFFFFFFFFFFFFFFFF), (.rbx, 0x7FFFFFFFFFFFFFFF)]) 2 .AOK [(.rbx, 0x8000000000000000)] ⟨false, true, false⟩
      (state 0 [0x63, 0x03] [(.rax, 0xFFFFFFFFFFFFFFFF), (.rbx, 0x7FFFFFFFFFFFFFFF)]).mem = true := by decide

/-- V-OPQ-5: what the spec fixes of a reserved OPQ; `rbx` and the flags are not looked at. -/
theorem test_reservedOpq_V_OPQ_5 :
    ([0x64, 0x67, 0x68, 0x6f].all fun b0 =>
      after (step (state 0 [b0, 0x03] [(.rax, 5), (.rcx, 6)])) (fun t =>
        decide (t.pc = 2 ∧ t.stat = .AOK ∧ t.reg .rax = 5 ∧ t.reg .rcx = 6 ∧ t.mem = [(0, b0), (1, 3)]))) = true := by
  decide

theorem test_jmp_V_JXX_7 :
    moves (state 0xFFF7 [0x70, 0x20, 0, 0, 0, 0, 0, 0, 0] []) 0x20 .AOK [] = true := by decide
theorem test_jmp_V_JXX_8 :
    moves (state 0xFFF8 [0x70] []) 0xFFF8 .ADR [] = true := by decide
theorem test_reservedJump7_V_JXX_4 :
    moves (state 0 [0x77, 0x00, 0x05, 0, 0, 0, 0, 0, 0] []) 9 .AOK [] = true := by decide
theorem test_reservedJump8to15_V_JXX_5 :
    moves (state 0 [0x7f, 0x00, 0x05, 0, 0, 0, 0, 0, 0] []) 9 .AOK [] = true := by decide
theorem test_call_V_CAL_1 :
    stepGives (state 0x100 [0x80, 0x00, 0x03, 0, 0, 0, 0, 0, 0] [(.rsp, 0x200)]) 0x300 .AOK [(.rsp, 0x1F8)]
      ⟨true, false, false⟩ [(0x100, 0x80), (0x102, 0x03), (0x1F8, 0x09), (0x1F9, 0x01)] = true := by decide
theorem test_call_V_FLT_5 :
    moves (state 0x100 [0x80, 0x00, 0x03, 0, 0, 0, 0, 0, 0] []) 0x100 .ADR [(.rsp, 0xFFFFFFFFFFFFFFF8)] = true := by decide
theorem test_ret_V_CAL_3 :
    moves (withWord (state 0x300 [0x90] [(.rsp, 0x1F8)]) 0x1F8 0xFFFFFFFFFFFFFFFF) 0xFFFFFFFFFFFFFFFF .AOK [(.rsp, 0x200)] = true := by decide
theorem test_ret_V_FLT_7 :
    moves (state 0x300 [0x90] [(.rsp, 0x10000)]) 0x300 .ADR [(.rsp, 0x10008)] = true := by decide
theorem test_pushq_V_STK_3 :
    stepGives (state 0 [0xa0, 0x4f] [(.rsp, 0x100)]) 2 .AOK [(.rsp, 0xF8)] ⟨true, false, false⟩
      [(0, 0xa0), (1, 0x4f), (0xF9, 0x01)] = true := by decide
theorem test_pushq_V_FLT_4 :
    moves (state 0x100 [0xa0, 0x0f] [(.rsp, 7), (.rax, 0x11)]) 0x100 .ADR [(.rsp, 0xFFFFFFFFFFFFFFFF)] = true := by decide
theorem test_popq_V_STK_5 :
    moves (withWord (state 0 [0xb0, 0x4f] [(.rsp, 0x100)]) 0x100 0xABC) 2 .AOK [(.rsp, 0xABC)] = true := by decide
theorem test_popq_V_FLT_8 :
    moves (state 0 [0xb0, 0x4f] [(.rsp, 0xFFF9)]) 0 .ADR [(.rsp, 0)] = true := by decide

/-- V-FET-1, V-FET-3, V-FET-5: an instruction that does not fit, and a PC outside memory, raise ADR. -/
theorem test_fetch_V_FET :
    moves (state 0xFFFF [0x60] []) 0xFFFF .ADR [] = true ∧ moves (state 0xFFF7 [0x30, 0xf0] []) 0xFFF7 .ADR [] = true ∧
    moves (state 0x10000 [] []) 0x10000 .ADR [] = true := by decide

/-! ### Witnesses: states and operands that meet the hypotheses of each statement, clause by clause -/

/-- An instruction with any first byte can be fetched at any address inside memory: the hypotheses of `FetchAdrFrom`. -/
theorem fetchAdrFrom_hypotheses (b0 : Byte) (limit : Nat) (h : limit < 0x10000) :
    ∃ s : State, s.running ∧ limit ≤ s.pc.toNat ∧ s.pcInside ∧ s.opcode = b0 := by
  have small : (BitVec.ofNat 64 limit).toNat = limit := by
    rw [BitVec.toNat_ofNat]
    omega
  refine ⟨{ State.reset with pc := BitVec.ofNat 64 limit, mem := State.reset.mem.writeByte limit b0 }, rfl, ?_, ?_, ?_⟩
  · exact le_of_eq small.symm
  · show (BitVec.ofNat 64 limit).toNat < 0x10000
    omega
  · show (State.reset.mem.writeByte limit b0).readByte (BitVec.ofNat 64 limit).toNat = b0
    rw [small]
    exact Memory.readByte_writeByte_self (lo := 0) rfl limit b0

theorem witness_DecodeOfEncode :
    (Instr.reservedOpq4to7 7 .r14 .NONE).wf = true ∧ (Instr.illegal 0xC0).wf = true ∧
    (Instr.reservedJump8to15 8 0xFFFFFFFFFFFFFFFF).wf = true ∧ (Instr.reservedCmov8to15 8 .rax .rax).wf = true ∧
    (Instr.reservedOpq8to15 8 .rax .rax).wf = true ∧ (Instr.halt 15).wf = true := by decide

theorem witness_EncodeOfDecode : decode [0xbf, 0xf4, 0x99] = .ok (.popq 15 .NONE .rsp, [0x99]) := by decide

/-- At the length of its format an instruction is read, one byte short of it none is. -/
theorem witness_LengthFromIcodeAlone :
    decode [0x90] = .ok (.ret 0, []) ∧
    decode [0x20, 0] = .ok (.rrmovq .rax .rax, []) ∧ decode [0x20] = .error .noRegisterByte ∧
    decode [0x80, 0, 0, 0, 0, 0, 0, 0, 0] = .ok (.call 0 0, []) ∧
    decode [0x80, 0, 0, 0, 0, 0, 0, 0] = .error .noConstant ∧
    decode [0x50, 0, 0, 0, 0, 0, 0, 0, 0, 0] = .ok (.mrmovq 0 .rax .rax 0, []) ∧
    decode [0x50, 0, 0, 0, 0, 0, 0, 0, 0] = .error .noConstant := by decide

theorem witness_RegisterFileReadsAndWrites : RegId.r14 ≠ .NONE ∧ RegId.rax ≠ .NONE := by decide

/-- Both sides of the boundary, and the two ends of the negative range. -/
theorem witness_EightByteRangeCheck :
    inRange8 0 = true ∧ inRange8 0xFFF8 = true ∧ inRange8 0xFFF9 = false ∧ inRange8 0xFFFFFFFFFFFFFFFF = false ∧
    inRange8 0x8000000000000000 = false := by decide

theorem witness_EightByteRead : (0xFFF8 : Word).toNat ≤ 0xFFF8 ∧ 0xFFF8 < (0xFFF9 : Word).toNat := by decide

theorem witness_EightByteWrite :
    State.reset.Inv ∧ (0xFFF8 : Word).toNat ≤ 0xFFF8 ∧ 0xFFF8 < (0xFFF9 : Word).toNat :=
  ⟨⟨by decide, by decide⟩, by decide, by decide⟩

/-- The last byte of memory, and the byte of the same line that falls outside it. -/
theorem witness_LoaderWritesBytesAndDropsOutside :
    Memory.wf [(0xFFFF, 1)] = true ∧ ([0x11, 0x22, 0x33] : List Byte)[1]? = some 0x22 ∧ 0xFFFE + 1 < 0x10000 ∧
    ¬(0xFFFE ≤ 0x10000 ∧ 0x10000 < 0xFFFE + ([0x11, 0x22, 0x33] : List Byte).length ∧ 0x10000 < 0x10000) ∧
    ¬(0xFFFE ≤ 0xFFFD ∧ 0xFFFD < 0xFFFE + ([0x11, 0x22, 0x33] : List Byte).length ∧ 0xFFFD < 0x10000) := by decide

theorem witness_StepRunsTheEncodedInstruction :
    (state 0xFFFE [0x20, 0x73] []).running ∧ (Instr.rrmovq .rdi .rbx).wf = true ∧
    (state 0xFFFE [0x20, 0x73] []).at (.rrmovq .rdi .rbx) :=
  ⟨rfl, by decide, by decide, by decide⟩

/-- Running with PC inside and outside memory; a run from reset that ends with ADR (program P4's push). -/
theorem witness_StepIsTotalWhileRunning :
    State.reset.running ∧ ((state 0x10000 [] []).running ∧ ¬(state 0x10000 [] []).pcInside) ∧
    ∃ t, t ∈ run 1 (State.boot [(0, [0xa0, 0x0f])]) ∧ t.stat = .ADR :=
  ⟨rfl, ⟨rfl, Nat.lt_irrefl 0x10000⟩, _, List.mem_singleton.2 rfl, rfl⟩

theorem witness_NoStepOnceStatIsNotAok : ¬(State.reset.raise .HLT).running ∧ ¬(State.reset.raise .INS).running ∧
    ¬(State.reset.raise .ADR).running :=
  ⟨Stat.noConfusion, Stat.noConfusion, Stat.noConfusion⟩

/-- Each format at the first address where it does not fit and at the last where it fits; one-byte formats fit
everywhere inside memory. -/
theorem witness_FetchAdrByFormat :
    ([(0xFFFF, 0x90, IClass.RET), (0xFFFF, 0x60, .OPQ), (0xFFFE, 0x60, .OPQ), (0xFFF8, 0x70, .JXX), (0xFFF7, 0x70, .JXX),
      (0xFFF7, 0x30, .IRMOVQ), (0xFFF6, 0x30, .IRMOVQ)].all fun ((pc, b0, c) : Word × Byte × IClass) =>
        let s := state pc [b0] []
        decide (s.stat = .AOK ∧ s.pc.toNat < 0x10000 ∧ IClass.ofNibble (highNibble s.opcode) = some c)) = true := by
  decide

/-- The situations A1, A2, A3, A4, A5 of R231, and a step with none of them. -/
theorem witness_AdrExactlyInItsSituations :
    ([state 0x10000 [] [], state 0xFFFF [0x60] [], state 0xFFF8 [0x70] [], state 0 [0xa0, 0x0f] [],
      state 0 [0x90] [(.rsp, 0xFFF9)]].all fun s => after (step s) fun t => decide (t.stat = .ADR)) = true ∧
    after (step (state 0 [0x90] [(.rsp, 0xFFF8)])) (fun t => decide (t.stat = .AOK)) = true := by decide

theorem witness_InsExactlyOnIllegalOpcode :
    (state 0xFFFF [0xC0] []).running ∧ (state 0xFFFF [0xC0] []).pcInside ∧ 0xC0 ≤ (state 0xFFFF [0xC0] []).opcode.toNat ∧
    ∃ t, step (state 0xFFFF [0xC0] []) = .next t ∧ t.stat = .INS :=
  ⟨rfl, show 0xFFFF < 0x10000 by decide, by decide, _, rfl, rfl⟩

theorem witness_HltExactlyOnHalt :
    (∃ t, step (state 0 [0x0F] []) = .next t ∧ t.stat = .HLT) ∧
    (∃ t, step (state 0 [0x10] []) = .next t ∧ t.stat ≠ .HLT) :=
  ⟨⟨_, rfl, rfl⟩, _, rfl, Stat.noConfusion⟩

/-- A Fetch ADR and a Memory-phase ADR. -/
theorem witness_FaultsArePreciseInPcFlagsAndMemory :
    (∃ t, step (state 0xFFFF [0x60] []) = .next t ∧ t.stat ≠ .AOK) ∧
    (∃ t, step (state 0 [0xb0, 0x0f] [(.rsp, 0xFFF9)]) = .next t ∧ t.stat ≠ .AOK) :=
  ⟨⟨_, rfl, Stat.noConfusion⟩, _, rfl, Stat.noConfusion⟩

theorem witness_EveryStepKeepsTheInvariant :
    (state 0 [0xa0, 0x0f] [(.rsp, 8), (.rax, 1)]).Inv ∧
    ∃ t, step (state 0 [0xa0, 0x0f] [(.rsp, 8), (.rax, 1)]) = .next t :=
  ⟨⟨by decide, by decide⟩, _, rfl⟩

theorem witness_FlagsChangeOnlyByOpq :
    (∃ t, step (state 0 [0x5F, 0x00] []) = .next t) ∧
    IClass.ofNibble (highNibble (state 0 [0x5F, 0x00] []).opcode) ≠ some .OPQ :=
  ⟨⟨_, rfl⟩, by decide⟩

/-- A store at the last address that fits, one past it, an instruction that stores nothing, and a step of one. -/
theorem witness_MemoryChangesOnlyWhereStored :
    storeAddr (.pushq 0 .rax .NONE) (state 0 [] [(.rsp, 0x10000)]) = some 0xFFF8 ∧
    storeAddr (.pushq 0 .rax .NONE) (state 0 [] [(.rsp, 0x10001)]) = some 0xFFF9 ∧
    storeAddr (.popq 0 .rax .NONE) (state 0 [] []) = none ∧
    (∃ t, exec (.pushq 0 .rax .NONE) (state 0 [] [(.rsp, 0x10001)]) = .next t) ∧
    (∃ t, step (state 0 [0xb0, 0x0f] []) = .next t) ∧
    IClass.ofNibble (highNibble (state 0 [0xb0, 0x0f] []).opcode) ∉ [some .RMMOVQ, some .PUSHQ, some .CALL] :=
  ⟨by decide, by decide, by decide, ⟨_, rfl⟩, ⟨_, rfl⟩, by decide⟩

theorem witness_RegistersWrittenByInstruction :
    ∃ t, exec (.popq 0 .rsp .NONE) (state 0 [] [(.rsp, 8)]) = .next t := ⟨_, rfl⟩

theorem witness_NewPcOfEveryInstruction :
    (Instr.ret 3).wf = true ∧ ∃ t, exec (.ret 3) (state 0 [] [(.rsp, 0xFFF8)]) = .next t ∧ t.stat = .AOK :=
  ⟨by decide, _, rfl, rfl⟩

theorem witness_NopOnlyAdvances : State.reset.running := rfl

theorem witness_MovesWhenConditionHolds :
    State.reset.running ∧ ∃ s : State, s.running ∧ 0xFFFF ≤ s.pc.toNat ∧ s.pcInside ∧ s.opcode = 0x26 :=
  ⟨rfl, fetchAdrFrom_hypotheses 0x26 0xFFFF (by decide)⟩

theorem witness_ReservedMoveNeverMoves : State.reset.running ∧ 8 ≤ (8 : Nibble).toNat ∧ 8 ≤ (15 : Nibble).toNat :=
  ⟨rfl, by decide, by decide⟩

theorem witness_IrmovqWritesTheConstant :
    State.reset.running ∧ ∃ s : State, s.running ∧ 0xFFF7 ≤ s.pc.toNat ∧ s.pcInside ∧ s.opcode = nibbles 0x3 0 :=
  ⟨rfl, fetchAdrFrom_hypotheses _ 0xFFF7 (by decide)⟩

/-- The last address that fits, through a displacement that wraps, and the first that does not. -/
theorem witness_RmmovqStores :
    let s := state 0 [] [(.rbx, 0xFFFF)]
    s.running ∧ s.Inv ∧ (s.reg .rbx + 0xFFFFFFFFFFFFFFF9).toNat ≤ 0xFFF8 ∧
    0xFFF8 < (s.reg .rbx + 0xFFFFFFFFFFFFFFFA).toNat ∧
    ∃ s : State, s.running ∧ 0xFFF7 ≤ s.pc.toNat ∧ s.pcInside ∧ s.opcode = nibbles 0x4 0 :=
  ⟨rfl, ⟨by decide, by decide⟩, by decide, by decide, fetchAdrFrom_hypotheses _ 0xFFF7 (by decide)⟩

theorem witness_MrmovqLoads :
    let s := state 0 [] [(.rbx, 0xFFFF)]
    s.running ∧ (s.reg .rbx + 0xFFFFFFFFFFFFFFF9).toNat ≤ 0xFFF8 ∧ 0xFFF8 < (s.reg .rbx + 0xFFFFFFFFFFFFFFFA).toNat ∧
    ∃ s : State, s.running ∧ 0xFFF7 ≤ s.pc.toNat ∧ s.pcInside ∧ s.opcode = nibbles 0x5 0 :=
  ⟨rfl, by decide, by decide, fetchAdrFrom_hypotheses _ 0xFFF7 (by decide)⟩

/-- A store at the last address that fits, and the load of it through another displacement. -/
theorem witness_LoadRecoversWhatWasStored :
    let s := state 0 [] [(.rbx, 0xFFF8), (.rax, 0x55)]
    s.running ∧ s.Inv ∧ (s.reg .rbx + 0).toNat ≤ 0xFFF8 ∧
    ∃ t u, exec (.rmmovq 0 .rax .rbx 0) s = .next t ∧ t.reg .NONE + 0xFFF8 = s.reg .rbx + 0 ∧
      exec (.mrmovq 0 .rcx .NONE 0xFFF8) t = .next u ∧ RegId.rcx ≠ .NONE :=
  ⟨rfl, ⟨by decide, by decide⟩, by decide, _, _, rfl, by decide, rfl, by decide⟩

theorem witness_AddqAddsAndSetsFlags :
    State.reset.running ∧ ∃ s : State, s.running ∧ 0xFFFF ≤ s.pc.toNat ∧ s.pcInside ∧ s.opcode = 0x60 :=
  ⟨rfl, fetchAdrFrom_hypotheses _ 0xFFFF (by decide)⟩

theorem witness_SubqSubtractsAndSetsFlags :
    State.reset.running ∧ ∃ s : State, s.running ∧ 0xFFFF ≤ s.pc.toNat ∧ s.pcInside ∧ s.opcode = 0x61 :=
  ⟨rfl, fetchAdrFrom_hypotheses _ 0xFFFF (by decide)⟩

theorem witness_AndqAndXorqSetFlags :
    State.reset.running ∧ (∃ s : State, s.running ∧ 0xFFFF ≤ s.pc.toNat ∧ s.pcInside ∧ s.opcode = 0x62) ∧
    ∃ s : State, s.running ∧ 0xFFFF ≤ s.pc.toNat ∧ s.pcInside ∧ s.opcode = 0x63 :=
  ⟨rfl, fetchAdrFrom_hypotheses _ 0xFFFF (by decide), fetchAdrFrom_hypotheses _ 0xFFFF (by decide)⟩

theorem witness_ReservedOpqCompletes :
    State.reset.running ∧ (4 ≤ (4 : Nibble).toNat ∧ (4 : Nibble).toNat ≤ 7) ∧
    (4 ≤ (7 : Nibble).toNat ∧ (7 : Nibble).toNat ≤ 7) ∧ 8 ≤ (8 : Nibble).toNat ∧ 8 ≤ (15 : Nibble).toNat ∧
    (∃ s : State, s.running ∧ 0xFFFF ≤ s.pc.toNat ∧ s.pcInside ∧ s.opcode = 0x64) ∧
    ∃ s : State, s.running ∧ 0xFFFF ≤ s.pc.toNat ∧ s.pcInside ∧ s.opcode = 0x6F :=
  ⟨rfl, by decide, by decide, by decide, by decide, fetchAdrFrom_hypotheses _ 0xFFFF (by decide),
    fetchAdrFrom_hypotheses _ 0xFFFF (by decide)⟩

/-- `rB` is 0 and `rA` is -1: next to the excluded case. -/
theorem witness_ConditionsCompareAfterSubq :
    let s := state 0 [] [(.rax, 0xFFFFFFFFFFFFFFFF)]
    (∃ t, exec (.subq .rax .rbx) s = .next t) ∧ ¬((s.reg .rbx).toInt = 0 ∧ (s.reg .rax).toInt = -2 ^ 63) :=
  ⟨⟨_, rfl⟩, by decide⟩

theorem witness_JumpsWhenConditionHolds :
    State.reset.running ∧ ∃ s : State, s.running ∧ 0xFFF8 ≤ s.pc.toNat ∧ s.pcInside ∧ s.opcode = 0x70 :=
  ⟨rfl, fetchAdrFrom_hypotheses _ 0xFFF8 (by decide)⟩

theorem witness_ReservedJumpNeverJumps :
    State.reset.running ∧ 7 ≤ (7 : Nibble).toNat ∧ 8 ≤ (8 : Nibble).toNat ∧
    ∃ s : State, s.running ∧ 0xFFF8 ≤ s.pc.toNat ∧ s.pcInside ∧ s.opcode = nibbles 0x7 15 :=
  ⟨rfl, by decide, by decide, fetchAdrFrom_hypotheses _ 0xFFF8 (by decide)⟩

theorem witness_CallPushesAndJumps :
    (let s := state 0 [] [(.rsp, 0x10000)]; s.running ∧ s.Inv ∧ (s.reg .rsp - 8).toNat ≤ 0xFFF8) ∧
    (let s := state 0 [] [(.rsp, 7)]; s.running ∧ s.Inv ∧ 0xFFF8 < (s.reg .rsp - 8).toNat) ∧
    ∃ s : State, s.running ∧ 0xFFF8 ≤ s.pc.toNat ∧ s.pcInside ∧ s.opcode = nibbles 0x8 0 :=
  ⟨⟨rfl, ⟨by decide, by decide⟩, by decide⟩, ⟨rfl, ⟨by decide, by decide⟩, by decide⟩,
    fetchAdrFrom_hypotheses _ 0xFFF8 (by decide)⟩

theorem witness_RetPopsPc :
    (let s := state 0 [] [(.rsp, 0xFFF8)]; s.running ∧ (s.reg .rsp).toNat ≤ 0xFFF8) ∧
    (let s := state 0 [] [(.rsp, 0xFFF9)]; s.running ∧ 0xFFF8 < (s.reg .rsp).toNat) :=
  ⟨⟨rfl, by decide⟩, rfl, by decide⟩

/-- A `ret` right after the `call`: the state `u` of the statement is `t`, which agrees with itself. -/
theorem witness_RetUndoesCall :
    let s := state 0 [] [(.rsp, 0x10000)]
    s.running ∧ s.Inv ∧ (s.reg .rsp - 8).toNat ≤ 0xFFF8 ∧
    ∃ t v, exec (.call 0 0x300) s = .next t ∧ t.running ∧ exec (.ret 0) t = .next v :=
  ⟨rfl, ⟨by decide, by decide⟩, by decide, _, _, rfl, rfl, rfl⟩

theorem witness_JumpOutOfMemoryStopsWithAok :
    (state 0 [0x70, 0, 0, 1, 0, 0, 0, 0, 0] []).running ∧ 0x10000 ≤ (0x10000 : Word).toNat ∧
    (state 0 [0x70, 0, 0, 1, 0, 0, 0, 0, 0] []).at (.jmp 0x10000) :=
  ⟨rfl, by decide, by decide, by decide⟩

theorem witness_PushqStoresAndDecrements :
    (let s := state 0 [] [(.rsp, 8)]; s.running ∧ s.Inv ∧ (s.reg .rsp - 8).toNat ≤ 0xFFF8) ∧
    (let s := state 0 [] [(.rsp, 0x10001)]; s.running ∧ s.Inv ∧ 0xFFF8 < (s.reg .rsp - 8).toNat) ∧
    ∃ s : State, s.running ∧ 0xFFFF ≤ s.pc.toNat ∧ s.pcInside ∧ s.opcode = nibbles 0xA 0 :=
  ⟨⟨rfl, ⟨by decide, by decide⟩, by decide⟩, ⟨rfl, ⟨by decide, by decide⟩, by decide⟩,
    fetchAdrFrom_hypotheses _ 0xFFFF (by decide)⟩

theorem witness_PopqLoadsAndIncrements :
    (let s := state 0 [] [(.rsp, 0xFFF8)]; s.running ∧ (s.reg .rsp).toNat ≤ 0xFFF8) ∧
    (let s := state 0 [] [(.rsp, 0xFFF9)]; s.running ∧ 0xFFF8 < (s.reg .rsp).toNat) ∧
    RegId.rsp ≠ .NONE ∧ RegId.NONE ≠ .rsp ∧
    ∃ s : State, s.running ∧ 0xFFFF ≤ s.pc.toNat ∧ s.pcInside ∧ s.opcode = nibbles 0xB 0 :=
  ⟨⟨rfl, by decide⟩, ⟨rfl, by decide⟩, by decide, by decide, fetchAdrFrom_hypotheses _ 0xFFFF (by decide)⟩

/-- V-STK-7 and V-STK-8: popping into `rsp`, and into another register. -/
theorem witness_PopAfterPush :
    let s := state 0 [] [(.rsp, 0x100), (.rax, 0x55)]
    s.running ∧ s.Inv ∧ ∃ t, exec (.pushq 0 .rax .NONE) s = .next t ∧ t.running ∧
      (∃ u, exec (.popq 0 .rsp .NONE) t = .next u ∧ u.running) ∧ ∃ u, exec (.popq 0 .rcx .NONE) t = .next u ∧ u.running :=
  ⟨rfl, ⟨by decide, by decide⟩, _, rfl, rfl, ⟨_, rfl, rfl⟩, _, rfl, rfl⟩

/-- Program P6's store, over the instruction that follows it. -/
theorem witness_StoreIsSeenByTheNextFetch :
    let s := state 0xA [0x40, 0x02, 0, 0, 0, 0, 0, 0, 0, 0] [(.rdx, 0x14)]
    s.running ∧ s.Inv ∧ s.at (.rmmovq 0 .rax .rdx 0) ∧ s.reg .rdx + 0 = s.pc + 10 ∧ (s.reg .rdx + 0).toNat ≤ 0xFFF8 ∧
    (s.reg .rax).extractLsb' 0 8 = 0 :=
  ⟨rfl, ⟨by decide, by decide⟩, ⟨by decide, by decide⟩, by decide, by decide, by decide⟩

/-- A first step from a state whose STAT is not AOK, a run of two records, and a run shorter than its fuel. -/
theorem witness_RunEndsAtTheFirstStoppedState :
    (∃ t, step (((state 0 [0x10, 0x00] []).raise .INS).raise .AOK) = .next t) ∧
    (∃ t u, run 2 (state 0 [0x10, 0x00] []) = [] ++ t :: u :: []) ∧ (run 2 State.reset).length < 2 :=
  ⟨⟨_, rfl⟩, ⟨_, _, rfl⟩, by decide⟩

theorem witness_RecordShowsTheNonzeroWords :
    (state 0xFFFF [0x10] []).Inv ∧ 0xFFF8 % 8 = 0 ∧ 0xFFF8 < 0x10000 ∧
    (le64 ((state 0xFFFF [0x10] []).mem.readBytes 0xFFF8 8)).toInt ≠ 0 :=
  ⟨⟨by decide, by decide⟩, by decide, by decide, by decide⟩

end Sys2Proof.Tests
end

section
/-! The family `10_state.md`: the register file (R24) and how every instruction moves PC (R27). -/

namespace Sys2Proof.Machine

/-! ### The register file (R24) -/

/-- Settles O6: the register reads after a write, from the laws of `State.setReg`. -/
theorem registerFileReadsAndWrites : Obligations.RegisterFileReadsAndWrites := by
  intro s v
  refine ⟨s.reg_NONE, s.setReg_NONE v, fun r hr => ⟨?_, fun q hq => ?_⟩⟩
  · rw [State.setReg_reg_self, if_neg hr]
  · exact s.setReg_reg_of_ne r q v (List.ne_of_not_mem_cons hq)

/-! ### How PC moves (R27) -/

/-- From `s` to `t` PC goes to `p` when the step ends with STAT = AOK, and stays when it does not (R26, R27). -/
def MovesPcTo (s t : State) (p : Word) : Prop := t.pc = if t.stat = .AOK then p else s.pc

/-- The PC update moves PC to its target, whatever the phases before it did to the rest of the state (R119). -/
theorem movesPcTo_pcUpdate {s u : State} (p : Word) (h : u.pc = s.pc) : MovesPcTo s (u.pcUpdate p) p := by
  rw [MovesPcTo, State.pcUpdate_stat, State.pcUpdate_pc, h]

theorem movesPcTo_self_of_pc_eq {s t : State} (h : t.pc = s.pc) : MovesPcTo s t s.pc := by
  rw [MovesPcTo, h, ite_self]

theorem movesPcTo_condMove (s : State) (c : Cond) (rA rB : RegId) :
    MovesPcTo s (s.condMove c rA rB) (s.pc + 2) := by
  rw [MovesPcTo, State.condMove_stat, State.condMove_pc]
  rfl

theorem movesPcTo_opq (s : State) (rB : RegId) (e : Word) (o : Bool) : MovesPcTo s (s.opq rB e o) (s.pc + 2) :=
  movesPcTo_pcUpdate _ rfl

/-- Counting a draw touches neither STAT nor PC, so a reserved OPQ moves PC as any OPQ (R175). -/
theorem movesPcTo_opqReserved (s : State) (rB : RegId) : MovesPcTo s (s.opqReserved rB) (s.pc + 2) :=
  movesPcTo_opq s rB _ _

theorem movesPcTo_jump (s : State) (c : Cond) (dest : Word) :
    MovesPcTo s (s.jump c dest) (if condHolds c s.cc then dest else s.pc + 9) :=
  movesPcTo_pcUpdate _ rfl

/-- The PC update of `ret` goes to the word at `rsp`: out of range the load has raised ADR, and the 0 it delivers is not
used (R53, R199). -/
theorem movesPcTo_ret (s : State) :
    MovesPcTo s (((s.load s.popAddr).setReg .rsp s.popNext).pcUpdate (s.loadValue s.popAddr))
      (le64 (s.mem.readBytes (s.reg .rsp).toNat 8)) := by
  obtain ⟨-, -, hv⟩ | ⟨-, hl, -⟩ := s.load_cases s.popAddr
  · rw [hv]
    exact movesPcTo_pcUpdate _ (State.load_pc s _)
  · simp [MovesPcTo, State.pcUpdate_pc, hl]

/-- Settles O26: by the constructors of `Instr`, each by the PC rule of the shared effect it ends with. -/
theorem newPcOfEveryInstruction : Obligations.NewPcOfEveryInstruction := by
  intro i s t _ h
  cases i <;> cases h
  case halt | illegal => exact movesPcTo_self_of_pc_eq rfl
  case nop => exact movesPcTo_pcUpdate _ rfl
  case rrmovq | cmovle | cmovl | cmove | cmovne | cmovge | cmovg | reservedCmov7 | reservedCmov8to15 =>
    exact movesPcTo_condMove s _ _ _
  case irmovq => exact movesPcTo_pcUpdate _ rfl
  case rmmovq => exact movesPcTo_pcUpdate _ (State.store_pc s _ _)
  case mrmovq => exact movesPcTo_pcUpdate _ (State.load_pc s _)
  case addq | subq | andq | xorq => exact movesPcTo_opq s _ _ _
  case reservedOpq4to7 | reservedOpq8to15 => exact movesPcTo_opqReserved s _
  case jmp | jle | jl | je | jne | jge | jg | reservedJump7 | reservedJump8to15 => exact movesPcTo_jump s _ _
  case call => exact movesPcTo_pcUpdate _ (State.store_pc s _ _)
  case ret => exact movesPcTo_ret s
  case pushq => exact movesPcTo_pcUpdate _ (State.store_pc s _ _)
  case popq => exact movesPcTo_pcUpdate _ (State.load_pc s _)

end Sys2Proof.Machine
end

section
/-! The family `30_encoding.md`: the length of an instruction (R84), the round trip of an encoding, and the classes
that ignore `ifun` (R88). -/

namespace Sys2Proof

/-! ### The length of an instruction (R84, R85) -/

/-- Decoding with outcome `r` reads an instruction of `total` bytes when `need` more bytes are in `bs`, and fails when
they are not. -/
def ReadsLength (total need : Nat) (bs : List Byte) (r : Except DecodeError (Instr × List Byte)) : Prop :=
  (need ≤ bs.length ∧ ∃ i tail, r = .ok (i, tail) ∧ (encode i).length = total) ∨
  (bs.length < need ∧ ∃ e, r = .error e)

namespace ReadsLength

theorem done {total : Nat} {bs : List Byte} {i : Instr} (h : (encode i).length = total) :
    ReadsLength total 0 bs (.ok (i, bs)) :=
  .inl ⟨Nat.zero_le _, i, bs, rfl, h⟩

/-- The register-specifier byte takes one byte (R82). -/
theorem takeRegs_bind {total need : Nat} {bs : List Byte}
    {k : RegId × RegId × List Byte → Except DecodeError (Instr × List Byte)}
    (h : ∀ rA rB rest, ReadsLength total need rest (k (rA, rB, rest))) :
    ReadsLength total (need + 1) bs (takeRegs bs >>= k) := by
  cases bs with
  | nil => exact .inr ⟨Nat.succ_pos _, _, rfl⟩
  | cons b rest =>
    obtain ⟨hn, hr⟩ | ⟨hn, hr⟩ := h (.ofNibble (highNibble b)) (.ofNibble (lowNibble b)) rest
    · exact .inl ⟨Nat.succ_le_succ hn, hr⟩
    · exact .inr ⟨Nat.succ_lt_succ hn, hr⟩

/-- The constant takes eight bytes (R83). -/
theorem takeConst_bind {total need : Nat} {bs : List Byte}
    {k : Word × List Byte → Except DecodeError (Instr × List Byte)}
    (h : ∀ v rest, ReadsLength total need rest (k (v, rest))) :
    ReadsLength total (need + 8) bs (takeConst bs >>= k) := by
  by_cases h8 : 8 ≤ bs.length
  · have hk : takeConst bs >>= k = k (le64 (bs.take 8), bs.drop 8) := by
      rw [takeConst, if_pos h8]
      rfl
    have hdrop : (bs.drop 8).length = bs.length - 8 := List.length_drop
    rw [hk]
    obtain ⟨hn, hr⟩ | ⟨hn, hr⟩ := h (le64 (bs.take 8)) (bs.drop 8)
    · exact .inl ⟨by omega, hr⟩
    · exact .inr ⟨by omega, hr⟩
  · refine .inr ⟨by omega, .noConstant, ?_⟩
    rw [takeConst, if_neg h8]
    rfl

end ReadsLength

theorem length_encode_decodeMove (ifun : Nibble) (rA rB : RegId) : (encode (decodeMove ifun rA rB)).length = 2 := by
  unfold decodeMove
  split <;> rfl

theorem length_encode_decodeOpq (ifun : Nibble) (rA rB : RegId) : (encode (decodeOpq ifun rA rB)).length = 2 := by
  unfold decodeOpq
  split <;> rfl

theorem length_encode_decodeJump (ifun : Nibble) (dest : Word) : (encode (decodeJump ifun dest)).length = 9 := by
  unfold decodeJump
  split <;> rfl

/-- Decoding after byte 0 needs the bytes that the class's length leaves, and no others (R84). -/
theorem readsLength_decodeClass (c : IClass) (ifun : Nibble) (bs : List Byte) :
    ReadsLength c.length (c.length - 1) bs (decodeClass c ifun bs) := by
  cases c with
  | HALT | NOP | RET => exact .done rfl
  | RRMOVQ => exact .takeRegs_bind fun rA rB _ => .done (length_encode_decodeMove ifun rA rB)
  | OPQ => exact .takeRegs_bind fun rA rB _ => .done (length_encode_decodeOpq ifun rA rB)
  | PUSHQ | POPQ => exact .takeRegs_bind fun _ _ _ => .done rfl
  | JXX => exact .takeConst_bind fun dest _ => .done (length_encode_decodeJump ifun dest)
  | CALL => exact .takeConst_bind fun _ _ => .done rfl
  | IRMOVQ | RMMOVQ | MRMOVQ => exact .takeRegs_bind fun _ _ _ => .takeConst_bind fun _ _ => .done rfl

/-- Decoding needs the bytes that byte 0's length leaves, and no others (R84, R89). -/
theorem readsLength_decode (b0 : Byte) (rest : List Byte) :
    ReadsLength (opcodeLength b0) (opcodeLength b0 - 1) rest (decode (b0 :: rest)) := by
  cases hc : IClass.ofNibble (highNibble b0) with
  | none =>
    simp only [opcodeLength, decode, hc]
    exact .done rfl
  | some c =>
    simp only [opcodeLength, decode, hc]
    exact readsLength_decodeClass c (lowNibble b0) rest

theorem opcodeLength_pos (b0 : Byte) : 0 < opcodeLength b0 := by
  unfold opcodeLength
  split
  · rw [IClass.length]
    omega
  · exact Nat.one_pos

/-- The table of R84 by `icode`: the length that the statement of O3 writes out. -/
def icodeLength (icode : Nibble) : Nat :=
  match icode.toNat with
  | 0x0 | 0x1 | 0x9 => 1
  | 0x2 | 0x6 | 0xA | 0xB => 2
  | 0x7 | 0x8 => 9
  | 0x3 | 0x4 | 0x5 => 10
  | _ => 1

theorem opcodeLength_eq_icodeLength (b0 : Byte) : opcodeLength b0 = icodeLength (highNibble b0) := by
  unfold opcodeLength
  generalize highNibble b0 = icode
  revert icode
  decide

/-- Settles O3: by what decoding needs after byte 0, with the class's length read off the table of R84. -/
theorem lengthFromIcodeAlone : Obligations.LengthFromIcodeAlone := by
  intro b0 rest
  change ((∃ i tail, decode (b0 :: rest) = .ok (i, tail)) ↔ icodeLength (highNibble b0) ≤ rest.length + 1) ∧
    ∀ i tail, decode (b0 :: rest) = .ok (i, tail) → (encode i).length = icodeLength (highNibble b0)
  rw [← opcodeLength_eq_icodeLength]
  have hpos := opcodeLength_pos b0
  obtain ⟨hn, j, tail, hd, hl⟩ | ⟨hn, e, hd⟩ := readsLength_decode b0 rest
  · rw [hd]
    refine ⟨iff_of_true ⟨j, tail, rfl⟩ (by omega), fun i _ h => ?_⟩
    cases h
    exact hl
  · rw [hd]
    exact ⟨iff_of_false (fun ⟨_, _, h⟩ => nomatch h) (by omega), fun _ _ h => nomatch h⟩

/-! ### The source's bytes (R97) -/

/-- Settles O4: the decoder is run on the five byte strings. -/
theorem sourceBytesDecode : Obligations.SourceBytesDecode := by
  unfold Obligations.SourceBytesDecode
  decide

/-! ### An encoding decodes to its instruction -/

theorem decode_opcode_cons (c : IClass) (ifun : Nibble) (bs : List Byte) :
    decode (nibbles c.toNibble ifun :: bs) = decodeClass c ifun bs := by
  simp [decode]

/-- The register-specifier byte is read back as the two registers (R82). -/
theorem takeRegs_regByte_bind {α : Type} (rA rB : RegId) (bs : List Byte)
    (k : RegId × RegId × List Byte → Except DecodeError α) :
    takeRegs (Machine.regByte rA rB :: bs) >>= k = k (rA, rB, bs) := by
  simp [takeRegs, Machine.regByte, bind, Except.bind]

/-- The constant is read back from the bytes of its value (R83). -/
theorem takeConst_wordBytes_bind {α : Type} (v : Word) (bs : List Byte)
    (k : Word × List Byte → Except DecodeError α) :
    takeConst (wordBytes v ++ bs) >>= k = k (v, bs) := by
  rw [takeConst_wordBytes_append]
  rfl

theorem decode_encodeOR_RRMOVQ (ifun : Nibble) (rA rB : RegId) (rest : List Byte) :
    decode (encodeOR .RRMOVQ ifun rA rB ++ rest) = .ok (decodeMove ifun rA rB, rest) :=
  (decode_opcode_cons .RRMOVQ ifun _).trans (takeRegs_regByte_bind rA rB rest _)

theorem decode_encodeOR_OPQ (ifun : Nibble) (rA rB : RegId) (rest : List Byte) :
    decode (encodeOR .OPQ ifun rA rB ++ rest) = .ok (decodeOpq ifun rA rB, rest) :=
  (decode_opcode_cons .OPQ ifun _).trans (takeRegs_regByte_bind rA rB rest _)

theorem decode_encodeOV_JXX (ifun : Nibble) (dest : Word) (rest : List Byte) :
    decode (encodeOV .JXX ifun dest ++ rest) = .ok (decodeJump ifun dest, rest) :=
  (decode_opcode_cons .JXX ifun _).trans (takeConst_wordBytes_bind dest rest _)

theorem decodeMove_of_ge_8 {ifun : Nibble} (h : 8 ≤ ifun.toNat) (rA rB : RegId) :
    decodeMove ifun rA rB = .reservedCmov8to15 ifun rA rB := by
  unfold decodeMove
  split
  case h_9 => rfl
  all_goals omega

theorem decodeOpq_of_4_to_7 {ifun : Nibble} (h : 4 ≤ ifun.toNat ∧ ifun.toNat ≤ 7) (rA rB : RegId) :
    decodeOpq ifun rA rB = .reservedOpq4to7 ifun rA rB := by
  obtain h | h | h | h : ifun.toNat = 4 ∨ ifun.toNat = 5 ∨ ifun.toNat = 6 ∨ ifun.toNat = 7 := by omega
  all_goals simp only [decodeOpq, h]

theorem decodeOpq_of_ge_8 {ifun : Nibble} (h : 8 ≤ ifun.toNat) (rA rB : RegId) :
    decodeOpq ifun rA rB = .reservedOpq8to15 ifun rA rB := by
  unfold decodeOpq
  split
  case h_9 => rfl
  all_goals omega

theorem decodeJump_of_ge_8 {ifun : Nibble} (h : 8 ≤ ifun.toNat) (dest : Word) :
    decodeJump ifun dest = .reservedJump8to15 ifun dest := by
  unfold decodeJump
  split
  case h_9 => rfl
  all_goals omega

/-- The encoding of a well-formed instruction decodes to it, whatever bytes follow: by its class's format, with the
`ifun` of a reserved row in the row's range. -/
theorem decode_encode {i : Instr} (h : i.wf = true) (rest : List Byte) : decode (encode i ++ rest) = .ok (i, rest) := by
  cases i with
  | halt n | nop n | ret n => exact decode_opcode_cons _ n rest
  | rrmovq rA rB | cmovle rA rB | cmovl rA rB | cmove rA rB | cmovne rA rB | cmovge rA rB | cmovg rA rB
  | reservedCmov7 rA rB => exact decode_encodeOR_RRMOVQ _ rA rB rest
  | reservedCmov8to15 n rA rB =>
    have hd := decode_encodeOR_RRMOVQ n rA rB rest
    rwa [decodeMove_of_ge_8 (of_decide_eq_true h)] at hd
  | addq rA rB | subq rA rB | andq rA rB | xorq rA rB => exact decode_encodeOR_OPQ _ rA rB rest
  | reservedOpq4to7 n rA rB =>
    have hd := decode_encodeOR_OPQ n rA rB rest
    rwa [decodeOpq_of_4_to_7 (of_decide_eq_true h)] at hd
  | reservedOpq8to15 n rA rB =>
    have hd := decode_encodeOR_OPQ n rA rB rest
    rwa [decodeOpq_of_ge_8 (of_decide_eq_true h)] at hd
  | jmp dest | jle dest | jl dest | je dest | jne dest | jge dest | jg dest | reservedJump7 dest =>
    exact decode_encodeOV_JXX _ dest rest
  | reservedJump8to15 n dest =>
    have hd := decode_encodeOV_JXX n dest rest
    rwa [decodeJump_of_ge_8 (of_decide_eq_true h)] at hd
  | irmovq n rA rB v | rmmovq n rA rB v | mrmovq n rA rB v =>
    exact (decode_opcode_cons _ n _).trans
      ((takeRegs_regByte_bind rA rB _ _).trans (takeConst_wordBytes_bind v rest _))
  | call n dest => exact (decode_opcode_cons .CALL n _).trans (takeConst_wordBytes_bind dest rest _)
  | pushq n rA rB | popq n rA rB => exact (decode_opcode_cons _ n _).trans (takeRegs_regByte_bind rA rB rest _)
  | illegal b0 =>
    have hc := (IClass.ofNibble_highNibble_eq_none b0).2 (of_decide_eq_true h)
    simp [encode, decode, hc]

/-! ### The classes that ignore `ifun` (R88) -/

namespace Machine

/-- A well-formed instruction and its encoding stand for each other. -/
theorem encodedAs_encode {i : Instr} (h : i.wf = true) : EncodedAs i (encode i) :=
  ⟨rfl, decode_encode h⟩

/-- Settles O5: the bytes written out are the instruction's encoding, and its meaning does not name `ifun`. -/
theorem unusedIfunIsIgnored : Obligations.UnusedIfunIsIgnored := by
  intro n rA rB v s
  exact ⟨⟨encodedAs_encode rfl, rfl⟩, ⟨encodedAs_encode rfl, rfl⟩, ⟨encodedAs_encode rfl, rfl⟩,
    ⟨encodedAs_encode rfl, rfl⟩, ⟨encodedAs_encode rfl, rfl⟩, ⟨encodedAs_encode rfl, rfl⟩,
    ⟨encodedAs_encode rfl, rfl⟩, ⟨encodedAs_encode rfl, rfl⟩, ⟨encodedAs_encode rfl, rfl⟩⟩

end Machine
end Sys2Proof
end

section
/-! The family `41_halt_nop.md`: halt (R140) and nop (R141). -/

namespace Sys2Proof.Machine

/-! ### Frames and the PC update -/

theorem sameRegsExcept_of_regs_eq {s t : State} (changed : List RegId) (h : t.regs = s.regs) :
    SameRegsExcept changed s t := by
  intro r _
  rw [State.reg, State.reg, h]

theorem sameMem_of_mem_eq {s t : State} (h : t.mem = s.mem) : SameMem s t := by
  intro a
  rw [h]

/-- While STAT is AOK the PC update ends the step as a step that completes (R119). -/
theorem advancesTo_pcUpdate {s : State} (h : s.stat = .AOK) (p : Word) : AdvancesTo (s.pcUpdate p) p :=
  ⟨(s.pcUpdate_stat p).trans h, State.pcUpdate_pc_of_AOK h p⟩

/-- A STAT other than AOK stops the machine, wherever PC is (R121, kind a). -/
theorem State.stopped_of_stat_ne_AOK {s : State} (h : s.stat ≠ .AOK) : s.stopped = true := by
  simp [State.stopped, h]

/-! ### The two meanings -/

/-- Raising HLT inhibits the PC update, so `halt` changes STAT alone (R116, R140). -/
theorem exec_halt (n : Nibble) (s : State) : exec (.halt n) s = .next (s.raise .HLT) := rfl

theorem exec_nop (n : Nibble) (s : State) : exec (.nop n) s = .next (s.pcUpdate (s.valP 1)) := rfl

/-- Settles O27: by the laws of `State.raise`, as `halt` does nothing but raise HLT. -/
theorem haltSetsHlt : Obligations.HaltSetsHlt := by
  intro n s
  refine ⟨encodedAs_encode rfl, s.raise .HLT, exec_halt n s, s.raise_stat .HLT, s.raise_pc .HLT, s.raise_cc .HLT,
    sameRegsExcept_of_regs_eq [] (s.raise_regs .HLT), sameMem_of_mem_eq (s.raise_mem .HLT), ?_⟩
  have hstat : (s.raise .HLT).stat ≠ .AOK := by
    rw [State.raise_stat]
    decide
  exact State.stopped_of_stat_ne_AOK hstat

/-- Settles O28: by the laws of `State.pcUpdate`, as `nop` does nothing but update PC. -/
theorem nopOnlyAdvances : Obligations.NopOnlyAdvances := by
  intro n s hrun
  exact ⟨encodedAs_encode rfl, s.pcUpdate (s.valP 1), exec_nop n s, advancesTo_pcUpdate hrun _,
    s.pcUpdate_cc _, sameRegsExcept_of_regs_eq [] (s.pcUpdate_regs _), sameMem_of_mem_eq (s.pcUpdate_mem _)⟩

end Sys2Proof.Machine
end

section
/-! The family `42_moves.md`: when an instruction's bytes do not fit (R124), and irmovq (R158). -/

namespace Sys2Proof

/-! ### Fetch ADR (R124, R231 A2 and A3) -/

theorem opcodeLength_nibbles (c : IClass) (ifun : Nibble) : opcodeLength (nibbles c.toNibble ifun) = c.length := by
  simp [opcodeLength]

/-- Fewer bytes than byte 0's length do not decode (R84, R92). -/
theorem decode_error_of_short {b0 : Byte} {rest : List Byte} (h : (b0 :: rest).length < opcodeLength b0) :
    ∃ e, decode (b0 :: rest) = .error e := by
  rw [List.length_cons] at h
  obtain ⟨hn, -⟩ | ⟨-, he⟩ := readsLength_decode b0 rest
  · omega
  · exact he

namespace Machine

/-- Fetch fails when the instruction's bytes run out of memory: its window is then shorter than the instruction. -/
theorem State.fetch_error_of_not_fits {s : State} (hin : s.pcInside)
    (h : Config.memSize < s.pc.toNat + opcodeLength s.opcode) : ∃ e, s.fetch = .error e := by
  obtain ⟨rest, hw⟩ := State.fetchWindow_eq_cons hin
  have hshort : (s.opcode :: rest).length < opcodeLength s.opcode := by
    rw [State.opcode, ← hw, State.length_fetchWindow]
    exact lt_of_le_of_lt (Nat.min_le_right _ _) (Nat.sub_lt_left_of_lt_add (Nat.le_of_lt hin) h)
  obtain ⟨e, hd⟩ := decode_error_of_short hshort
  obtain ⟨-, ⟨i, tail, hok, -⟩ | ⟨e', -, hf⟩⟩ | ⟨-, hf⟩ := s.fetch_cases
  · rw [hw] at hok
    cases hd.symm.trans hok
  · exact ⟨e', hf⟩
  · exact ⟨_, hf⟩

/-- An instruction whose length passes the end of memory from `limit` on does not fit there. -/
theorem fetchAdrFrom_of_opcodeLength {b0 : Byte} {limit : Nat} (h : Config.memSize < limit + opcodeLength b0) :
    FetchAdrFrom b0 limit := by
  rintro s hrun hlimit hin rfl
  obtain ⟨e, hf⟩ := State.fetch_error_of_not_fits hin (lt_of_lt_of_le h (Nat.add_le_add_right hlimit _))
  exact step_of_fetch_error hrun hf

/-- The table of R124, by class: `ifun` does not matter. -/
theorem fetchAdrFrom_of_class (c : IClass) (ifun : Nibble) {limit : Nat} (h : Config.memSize < limit + c.length) :
    FetchAdrFrom (nibbles c.toNibble ifun) limit := by
  apply fetchAdrFrom_of_opcodeLength
  rwa [opcodeLength_nibbles]

/-! ### Writing one register -/

theorem writesReg_setReg (s : State) (r : RegId) (v : Word) : WritesReg s (s.setReg r v) r v :=
  ⟨s.setReg_reg_self r v, fun q hq => s.setReg_reg_of_ne r q v (List.ne_of_not_mem_cons hq)⟩

/-- The PC update adds nothing to what Write-back did (R119). -/
theorem writesReg_pcUpdate {s u : State} {r : RegId} {v : Word} (p : Word) (h : WritesReg s u r v) :
    WritesReg s (u.pcUpdate p) r v := by
  obtain ⟨hself, hother⟩ := h
  exact ⟨(u.pcUpdate_reg p r).trans hself, fun q hq => (u.pcUpdate_reg p q).trans (hother q hq)⟩

/-! ### irmovq (R158) -/

theorem exec_irmovq (n : Nibble) (rA rB : RegId) (v : Word) (s : State) :
    exec (.irmovq n rA rB v) s = .next ((s.setReg rB v).pcUpdate (s.valP 10)) := rfl

/-- Settles O31: Fetch by the class's length of 10, the effect by the laws of `State.setReg` and `State.pcUpdate`. -/
theorem irmovqWritesTheConstant : Obligations.IrmovqWritesTheConstant := by
  intro n rA rB v
  refine ⟨encodedAs_encode rfl, fetchAdrFrom_of_class .IRMOVQ n (by decide), fun s hrun => ?_⟩
  have hstat : (s.setReg rB v).stat = .AOK := (s.setReg_stat rB v).trans hrun
  exact ⟨_, exec_irmovq n rA rB v s, writesReg_pcUpdate _ (writesReg_setReg s rB v), advancesTo_pcUpdate hstat _,
    (State.pcUpdate_cc _ _).trans (s.setReg_cc rB v),
    sameMem_of_mem_eq ((State.pcUpdate_mem _ _).trans (s.setReg_mem rB v))⟩

end Machine
end Sys2Proof
end

section
/-! The family `60_exceptions.md`: what sets STAT to INS (R232) and to HLT (R233). -/

namespace Sys2Proof

/-! ### The class of a decoded instruction (R85) -/

/-- The class of an instruction; none for an illegal first byte (R85, R89). -/
def Instr.iclass : Instr → Option IClass
  | .halt _ => some .HALT
  | .nop _ => some .NOP
  | .rrmovq _ _ | .cmovle _ _ | .cmovl _ _ | .cmove _ _ | .cmovne _ _ | .cmovge _ _ | .cmovg _ _
  | .reservedCmov7 _ _ | .reservedCmov8to15 _ _ _ => some .RRMOVQ
  | .irmovq _ _ _ _ => some .IRMOVQ
  | .rmmovq _ _ _ _ => some .RMMOVQ
  | .mrmovq _ _ _ _ => some .MRMOVQ
  | .addq _ _ | .subq _ _ | .andq _ _ | .xorq _ _ | .reservedOpq4to7 _ _ _ | .reservedOpq8to15 _ _ _ => some .OPQ
  | .jmp _ | .jle _ | .jl _ | .je _ | .jne _ | .jge _ | .jg _ | .reservedJump7 _ | .reservedJump8to15 _ _ => some .JXX
  | .call _ _ => some .CALL
  | .ret _ => some .RET
  | .pushq _ _ _ => some .PUSHQ
  | .popq _ _ _ => some .POPQ
  | .illegal _ => none

/-- Where decoding with outcome `r` succeeds, it reads an instruction of class `c`. -/
def YieldsClass (c : IClass) (r : Except DecodeError (Instr × List Byte)) : Prop :=
  ∀ i tail, r = .ok (i, tail) → i.iclass = some c

namespace YieldsClass

theorem done {c : IClass} {i : Instr} {bs : List Byte} (h : i.iclass = some c) : YieldsClass c (.ok (i, bs)) := by
  rintro _ _ ⟨⟩
  exact h

/-- What is read before the instruction is put together does not touch its class. -/
theorem bind {α : Type} {c : IClass} {x : Except DecodeError α} {k : α → Except DecodeError (Instr × List Byte)}
    (h : ∀ a, YieldsClass c (k a)) : YieldsClass c (x >>= k) := by
  cases x with
  | error e => exact fun _ _ hk => nomatch hk
  | ok a => exact h a

end YieldsClass

theorem iclass_decodeMove (ifun : Nibble) (rA rB : RegId) : (decodeMove ifun rA rB).iclass = some .RRMOVQ := by
  unfold decodeMove
  split <;> rfl

theorem iclass_decodeOpq (ifun : Nibble) (rA rB : RegId) : (decodeOpq ifun rA rB).iclass = some .OPQ := by
  unfold decodeOpq
  split <;> rfl

theorem iclass_decodeJump (ifun : Nibble) (dest : Word) : (decodeJump ifun dest).iclass = some .JXX := by
  unfold decodeJump
  split <;> rfl

theorem yieldsClass_decodeClass (c : IClass) (ifun : Nibble) (bs : List Byte) :
    YieldsClass c (decodeClass c ifun bs) := by
  cases c with
  | HALT | NOP | RET => exact .done rfl
  | RRMOVQ => exact .bind fun _ => .done (iclass_decodeMove ifun _ _)
  | OPQ => exact .bind fun _ => .done (iclass_decodeOpq ifun _ _)
  | PUSHQ | POPQ => exact .bind fun _ => .done rfl
  | JXX => exact .bind fun _ => .done (iclass_decodeJump ifun _)
  | CALL => exact .bind fun _ => .done rfl
  | IRMOVQ | RMMOVQ | MRMOVQ => exact .bind fun _ => .bind fun _ => .done rfl

/-- The class of a decoded instruction is the one byte 0 selects (R85). -/
theorem iclass_of_decode {b0 : Byte} {rest tail : List Byte} {i : Instr} (h : decode (b0 :: rest) = .ok (i, tail)) :
    i.iclass = IClass.ofNibble (highNibble b0) := by
  cases hc : IClass.ofNibble (highNibble b0) with
  | none =>
    simp only [decode, hc] at h
    cases h
    rfl
  | some c =>
    simp only [decode, hc] at h
    exact yieldsClass_decodeClass c (lowNibble b0) rest i tail h

/-- A byte selects HALT exactly when it is 0x0F or below (R85, R233). -/
theorem ofNibble_highNibble_eq_HALT (b : Byte) : IClass.ofNibble (highNibble b) = some .HALT ↔ b.toNat ≤ 0x0F := by
  revert b
  decide

namespace Machine

/-! ### Instructions of one byte -/

theorem encodedAs_illegal {b : Byte} (h : 0xC0 ≤ b.toNat) : EncodedAs (.illegal b) [b] :=
  encodedAs_encode (decide_eq_true h)

theorem encodedAs_halt {b : Byte} (h : b.toNat ≤ 0x0F) : EncodedAs (.halt (lowNibble b)) [b] := by
  have hhigh : highNibble b = IClass.HALT.toNibble :=
    (IClass.ofNibble_eq_some _ _).1 ((ofNibble_highNibble_eq_HALT b).2 h)
  have hb : encode (.halt (lowNibble b)) = [b] := by
    rw [encode, encodeO, ← hhigh, nibbles_high_low]
  exact hb ▸ encodedAs_encode rfl

/-- When the byte at PC is a whole instruction, the step is that instruction, whatever bytes follow. -/
theorem step_of_encodedAs_opcode {s : State} {i : Instr} (hrun : s.running) (hin : s.pcInside)
    (henc : EncodedAs i [s.opcode]) : step s = exec i s := by
  obtain ⟨-, hdec⟩ := henc
  obtain ⟨rest, hw⟩ := State.fetchWindow_eq_cons hin
  have hd : decode s.fetchWindow = .ok (i, rest) := hw ▸ hdec rest
  obtain ⟨-, ⟨j, tail, hok, hf⟩ | ⟨e, herr, -⟩⟩ | ⟨hout, -⟩ := s.fetch_cases
  · cases hd.symm.trans hok
    exact step_of_fetch_ok hrun hf
  · cases hd.symm.trans herr
  · exact absurd hin (Nat.not_lt.2 hout)

theorem exec_illegal (b : Byte) (s : State) : exec (.illegal b) s = .next (s.raise .INS) := rfl

theorem step_eq_raise_INS {s : State} (hrun : s.running) (hin : s.pcInside) (h : 0xC0 ≤ s.opcode.toNat) :
    step s = .next (s.raise .INS) :=
  (step_of_encodedAs_opcode hrun hin (encodedAs_illegal h)).trans (exec_illegal s.opcode s)

theorem step_eq_raise_HLT {s : State} (hrun : s.running) (hin : s.pcInside) (h : s.opcode.toNat ≤ 0x0F) :
    step s = .next (s.raise .HLT) :=
  (step_of_encodedAs_opcode hrun hin (encodedAs_halt h)).trans (exec_halt _ s)

/-! ### How a step can end (R230) -/

/-- The instruction at PC has the class that the byte at PC selects. -/
theorem State.iclass_of_fetch {s : State} {i : Instr} (h : s.fetch = .ok i) :
    s.pcInside ∧ i.iclass = IClass.ofNibble (highNibble s.opcode) := by
  obtain ⟨hin, ⟨j, tail, hd, hf⟩ | ⟨e, -, hf⟩⟩ | ⟨-, hf⟩ := s.fetch_cases
  · cases h.symm.trans hf
    obtain ⟨rest, hw⟩ := State.fetchWindow_eq_cons hin
    rw [hw] at hd
    exact ⟨hin, iclass_of_decode hd⟩
  · cases h.symm.trans hf
  · cases h.symm.trans hf

/-- A store leaves STAT at AOK or raises ADR (R117). -/
theorem State.store_stat_AOK_or_ADR {s : State} (h : s.running) (a v : Word) :
    (s.store a v).stat = .AOK ∨ (s.store a v).stat = .ADR := by
  obtain ⟨-, he⟩ | ⟨-, he⟩ := s.store_cases a v
  · exact .inl (by rw [he, State.setMem_stat, h])
  · exact .inr (by rw [he, State.raise_stat])

/-- A load leaves STAT at AOK or raises ADR (R117). -/
theorem State.load_stat_AOK_or_ADR {s : State} (h : s.running) (a : Word) :
    (s.load a).stat = .AOK ∨ (s.load a).stat = .ADR := by
  obtain ⟨-, he, -⟩ | ⟨-, he, -⟩ := s.load_cases a
  · exact .inl (by rw [he, h])
  · exact .inr (by rw [he, State.raise_stat])

/-- Only `halt` raises HLT, only an illegal byte raises INS, each changing STAT alone; every other instruction completes
or raises ADR (R230 to R233). -/
theorem exec_stat_cases {i : Instr} {s t : State} (hrun : s.running) (h : exec i s = .next t) :
    (i.iclass = some .HALT ∧ t = s.raise .HLT) ∨ (i.iclass = none ∧ t = s.raise .INS) ∨
    (t.stat = .AOK ∨ t.stat = .ADR) := by
  cases i <;> cases h
  case halt => exact .inl ⟨rfl, rfl⟩
  case illegal => exact .inr (.inl ⟨rfl, rfl⟩)
  all_goals refine .inr (.inr ?_)
  case nop => exact .inl ((s.pcUpdate_stat _).trans hrun)
  case rrmovq | cmovle | cmovl | cmove | cmovne | cmovge | cmovg | reservedCmov7 | reservedCmov8to15 =>
    exact .inl ((s.condMove_stat _ _ _).trans hrun)
  case irmovq => exact .inl ((State.pcUpdate_stat _ _).trans hrun)
  case addq | subq | andq | xorq | reservedOpq4to7 | reservedOpq8to15 => exact .inl ((s.opq_stat _ _ _).trans hrun)
  case jmp | jle | jl | je | jne | jge | jg | reservedJump7 | reservedJump8to15 =>
    exact .inl ((s.jump_stat _ _).trans hrun)
  case rmmovq | call | pushq =>
    rw [State.pcUpdate_stat]
    exact State.store_stat_AOK_or_ADR hrun _ _
  case mrmovq | ret | popq =>
    rw [State.pcUpdate_stat]
    exact State.load_stat_AOK_or_ADR hrun _

/-- The ends of a step, by the byte at PC: HLT, INS, or else AOK or ADR (R230 to R233). -/
theorem step_stat_cases {s t : State} (h : step s = .next t) :
    (s.pcInside ∧ s.opcode.toNat ≤ 0x0F ∧ t = s.raise .HLT) ∨
    (s.pcInside ∧ 0xC0 ≤ s.opcode.toNat ∧ t = s.raise .INS) ∨
    (t.stat = .AOK ∨ t.stat = .ADR) := by
  obtain ⟨hrun, ⟨i, hf, hx⟩ | ⟨e, -, rfl⟩⟩ := step_cases h
  · obtain ⟨hin, hclass⟩ := State.iclass_of_fetch hf
    obtain ⟨hc, ht⟩ | ⟨hc, ht⟩ | hstat := exec_stat_cases hrun hx
    · exact .inl ⟨hin, (ofNibble_highNibble_eq_HALT _).1 (hclass.symm.trans hc), ht⟩
    · exact .inr (.inl ⟨hin, (IClass.ofNibble_highNibble_eq_none _).1 (hclass.symm.trans hc), ht⟩)
    · exact .inr (.inr hstat)
  · exact .inr (.inr (.inr rfl))

/-! ### INS and HLT -/

/-- Settles O17: an illegal byte is an instruction of one byte, and the ends of a step leave INS to such a byte only. -/
theorem insExactlyOnIllegalOpcode : Obligations.InsExactlyOnIllegalOpcode := by
  refine ⟨fun _ => encodedAs_illegal, exec_illegal, fun _ => step_eq_raise_INS, fun s t h hins => ?_⟩
  obtain ⟨-, -, rfl⟩ | ⟨hin, hop, -⟩ | hstat | hstat := step_stat_cases h
  · cases hins
  · exact ⟨hin, hop⟩
  all_goals cases hstat.symm.trans hins

/-- Settles O18: a HALT byte is an instruction of one byte, and the ends of a step leave HLT to such a byte only. -/
theorem hltExactlyOnHalt : Obligations.HltExactlyOnHalt := by
  intro s t h
  have hends : t.stat = .HLT → (s.pcInside ∧ s.opcode.toNat ≤ 0x0F) ∧ t = s.raise .HLT := by
    intro hhlt
    obtain ⟨hin, hop, ht⟩ | ⟨-, -, rfl⟩ | hstat | hstat := step_stat_cases h
    · exact ⟨⟨hin, hop⟩, ht⟩
    · cases hhlt
    all_goals cases hstat.symm.trans hhlt
  refine ⟨⟨fun hhlt => (hends hhlt).1, fun ⟨hin, hop⟩ => ?_⟩, fun hhlt => (hends hhlt).2⟩
  obtain ⟨hrun, -⟩ := step_cases h
  cases h.symm.trans (step_eq_raise_HLT hrun hin hop)
  exact s.raise_stat .HLT

end Machine
end Sys2Proof
end

section
/-! The family `70_reset_and_hazards.md`: the state after reset (R260). -/

namespace Sys2Proof.Machine

@[simp] theorem State.reset_reg (r : RegId) : State.reset.reg r = 0 := by
  cases r <;> rfl

@[simp] theorem State.reset_mem_readByte (a : Nat) : State.reset.mem.readByte a = 0 := Memory.readByte_nil a

/-- Settles O11: the registers and the memory by the laws of `State.reset`, the other fields as it gives them. -/
theorem resetValues : Obligations.ResetValues :=
  ⟨rfl, State.reset_reg, rfl, rfl, rfl, rfl, State.reset_mem_readByte⟩

end Sys2Proof.Machine
end

section
/-! The two round trips of an encoding (`30_encoding.md`): decoding undoes encoding, and encoding undoes decoding. -/

namespace Sys2Proof

/-! ### What the readers of an instruction's parts take (R82, R83) -/

/-- A register-specifier byte that was read is the byte of its two registers (R82). -/
theorem takeRegs_bind_eq_ok {α : Type} {bs : List Byte} {k : RegId × RegId × List Byte → Except DecodeError α} {r : α}
    (h : takeRegs bs >>= k = .ok r) :
    ∃ rA rB rest, bs = Machine.regByte rA rB :: rest ∧ k (rA, rB, rest) = .ok r := by
  cases bs with
  | nil => cases h
  | cons b rest => exact ⟨_, _, rest, by simp [Machine.regByte], h⟩

/-- A constant that was read is spelled by the eight bytes taken (R83). -/
theorem takeConst_bind_eq_ok {α : Type} {bs : List Byte} {k : Word × List Byte → Except DecodeError α} {r : α}
    (h : takeConst bs >>= k = .ok r) : ∃ v rest, bs = wordBytes v ++ rest ∧ k (v, rest) = .ok r := by
  by_cases h8 : 8 ≤ bs.length
  · refine ⟨le64 (bs.take 8), bs.drop 8, ?_, ?_⟩
    · rw [wordBytes_le64 _ (List.length_take_of_le h8), List.take_append_drop]
    · rwa [takeConst, if_pos h8] at h
  · rw [takeConst, if_neg h8] at h
    cases h

/-! ### The rows of a class that uses `ifun` (R86, R87) -/

/-- The rows of RRMOVQ and JXX: one for the values from 8, one each for 0 to 7 (R87). -/
theorem ifun_rows (n : Nibble) :
    8 ≤ n.toNat ∨ n = 0 ∨ n = 1 ∨ n = 2 ∨ n = 3 ∨ n = 4 ∨ n = 5 ∨ n = 6 ∨ n = 7 := by
  revert n
  decide

/-- The rows of OPQ: two reserved ones, then one each for the values 0 to 3 (R86). -/
theorem ifun_rows_opq (n : Nibble) :
    (4 ≤ n.toNat ∧ n.toNat ≤ 7) ∨ 8 ≤ n.toNat ∨ n = 0 ∨ n = 1 ∨ n = 2 ∨ n = 3 := by
  revert n
  decide

/-- The row that an `ifun` selects is well-formed and encodes that `ifun`. -/
theorem decodeMove_wf_encode (ifun : Nibble) (rA rB : RegId) :
    (decodeMove ifun rA rB).wf = true ∧ encode (decodeMove ifun rA rB) = encodeOR .RRMOVQ ifun rA rB := by
  obtain h | rfl | rfl | rfl | rfl | rfl | rfl | rfl | rfl := ifun_rows ifun
  · rw [decodeMove_of_ge_8 h]
    exact ⟨decide_eq_true h, rfl⟩
  all_goals exact ⟨rfl, rfl⟩

theorem decodeOpq_wf_encode (ifun : Nibble) (rA rB : RegId) :
    (decodeOpq ifun rA rB).wf = true ∧ encode (decodeOpq ifun rA rB) = encodeOR .OPQ ifun rA rB := by
  obtain h | h | rfl | rfl | rfl | rfl := ifun_rows_opq ifun
  · rw [decodeOpq_of_4_to_7 h]
    exact ⟨decide_eq_true h, rfl⟩
  · rw [decodeOpq_of_ge_8 h]
    exact ⟨decide_eq_true h, rfl⟩
  all_goals exact ⟨rfl, rfl⟩

theorem decodeJump_wf_encode (ifun : Nibble) (dest : Word) :
    (decodeJump ifun dest).wf = true ∧ encode (decodeJump ifun dest) = encodeOV .JXX ifun dest := by
  obtain h | rfl | rfl | rfl | rfl | rfl | rfl | rfl | rfl := ifun_rows ifun
  · rw [decodeJump_of_ge_8 h]
    exact ⟨decide_eq_true h, rfl⟩
  all_goals exact ⟨rfl, rfl⟩

/-! ### What decodes is the encoding of a well-formed instruction -/

/-- Where decoding with outcome `r` succeeds, it reads a well-formed instruction whose encoding `bs` begins with. -/
def ReadsEncoding (bs : List Byte) (r : Except DecodeError (Instr × List Byte)) : Prop :=
  ∀ i rest, r = .ok (i, rest) → i.wf = true ∧ bs = encode i ++ rest

namespace ReadsEncoding

theorem done {bs rest : List Byte} {i : Instr} (hwf : i.wf = true) (hbs : bs = encode i ++ rest) :
    ReadsEncoding bs (.ok (i, rest)) := by
  rintro _ _ ⟨⟩
  exact ⟨hwf, hbs⟩

theorem takeRegs_bind {pre bs : List Byte} {k : RegId × RegId × List Byte → Except DecodeError (Instr × List Byte)}
    (h : ∀ rA rB rest, ReadsEncoding (pre ++ Machine.regByte rA rB :: rest) (k (rA, rB, rest))) :
    ReadsEncoding (pre ++ bs) (takeRegs bs >>= k) := by
  intro i tail hok
  obtain ⟨rA, rB, rest, rfl, hk⟩ := takeRegs_bind_eq_ok hok
  exact h rA rB rest i tail hk

theorem takeConst_bind {pre bs : List Byte} {k : Word × List Byte → Except DecodeError (Instr × List Byte)}
    (h : ∀ v rest, ReadsEncoding (pre ++ (wordBytes v ++ rest)) (k (v, rest))) :
    ReadsEncoding (pre ++ bs) (takeConst bs >>= k) := by
  intro i tail hok
  obtain ⟨v, rest, rfl, hk⟩ := takeConst_bind_eq_ok hok
  exact h v rest i tail hk

end ReadsEncoding

theorem readsEncoding_decodeClass (c : IClass) (ifun : Nibble) (bs : List Byte) :
    ReadsEncoding ([nibbles c.toNibble ifun] ++ bs) (decodeClass c ifun bs) := by
  cases c with
  | HALT | NOP | RET => exact .done rfl rfl
  | RRMOVQ =>
    refine .takeRegs_bind fun rA rB rest => ?_
    obtain ⟨hwf, henc⟩ := decodeMove_wf_encode ifun rA rB
    exact .done hwf (henc ▸ rfl)
  | OPQ =>
    refine .takeRegs_bind fun rA rB rest => ?_
    obtain ⟨hwf, henc⟩ := decodeOpq_wf_encode ifun rA rB
    exact .done hwf (henc ▸ rfl)
  | PUSHQ | POPQ => exact .takeRegs_bind fun _ _ _ => .done rfl rfl
  | JXX =>
    refine .takeConst_bind fun dest rest => ?_
    obtain ⟨hwf, henc⟩ := decodeJump_wf_encode ifun dest
    exact .done hwf (henc ▸ rfl)
  | CALL => exact .takeConst_bind fun _ _ => .done rfl rfl
  | IRMOVQ | RMMOVQ | MRMOVQ =>
    exact .takeRegs_bind fun rA rB _ => .takeConst_bind (pre := [_, Machine.regByte rA rB]) fun _ _ => .done rfl rfl

theorem readsEncoding_decode (bs : List Byte) : ReadsEncoding bs (decode bs) := by
  cases bs with
  | nil => exact fun _ _ h => nomatch h
  | cons b0 bs =>
    cases hc : IClass.ofNibble (highNibble b0) with
    | none =>
      simp only [decode, hc]
      exact .done (decide_eq_true ((IClass.ofNibble_highNibble_eq_none b0).1 hc)) rfl
    | some c =>
      have hb0 : b0 = nibbles c.toNibble (lowNibble b0) := by
        rw [← (IClass.ofNibble_eq_some _ c).1 hc, nibbles_high_low]
      simp only [decode, hc]
      have h := readsEncoding_decodeClass c (lowNibble b0) bs
      rwa [← hb0] at h

/-- Settles O1: by the decoding of each class's format. -/
theorem decodeOfEncode : Obligations.DecodeOfEncode := fun _ rest hwf => decode_encode hwf rest

/-- Settles O2: each part a class reads is taken from the bytes that encode it. -/
theorem encodeOfDecode : Obligations.EncodeOfDecode := readsEncoding_decode

end Sys2Proof
end

section
/-! The family `20_memory.md`: the 8-byte accesses (R52 to R54) and the loader (R68, R263). -/

namespace Sys2Proof

/-! ### Bytes as sums (R56) -/

theorem toNat_le64 {bs : List Byte} (h : bs.length = 8) : (le64 bs).toNat = leNat bs := by
  have bound := leNat_lt bs
  rw [h] at bound
  exact (BitVec.toNat_ofNat _ _).trans (Nat.mod_eq_of_lt bound)

/-- The number that a run of bytes spells is the sum of the bytes, each times its power of 256 (R56). -/
theorem leNat_readBytes (m : Machine.Memory) (a n : Nat) :
    leNat (m.readBytes a n) = ((List.range n).map fun i => (m.readByte (a + i)).toNat * 2 ^ (8 * i)).sum := by
  induction n generalizing a with
  | zero => rfl
  | succ n ih =>
    have shift : ∀ i, 256 * ((m.readByte (a + 1 + i)).toNat * 2 ^ (8 * i)) =
        (m.readByte (a + (i + 1))).toNat * 2 ^ (8 * (i + 1)) := fun i => by
      rw [Nat.add_right_comm, Nat.mul_succ, Nat.pow_add, Nat.mul_left_comm, Nat.mul_comm 256]
      rfl
    simp [Machine.Memory.readBytes, leNat, ih, List.range_succ_eq_map, Function.comp_def, ← List.sum_map_mul_left,
      shift]

namespace Machine

/-! ### The range check (R52) -/

theorem inRange8_iff (a : Word) : inRange8 a = true ↔ a.toNat ≤ 0xFFF8 := by
  rw [inRange8_iff_add]
  exact Nat.add_le_add_iff_right (n := 8) (k := 0xFFF8)

theorem inRange8_eq_false {a : Word} (h : 0xFFF8 < a.toNat) : inRange8 a = false :=
  Bool.eq_false_iff.2 fun hr => Nat.not_le.2 h ((inRange8_iff a).1 hr)

/-- Settles O7: the first two forms are one sum in the integers, the third is `inRange8_iff`. -/
theorem eightByteRangeCheck : Obligations.EightByteRangeCheck := by
  refine ⟨fun a => ⟨?_, ?_, inRange8_iff a⟩, by decide⟩
  all_goals
    simp only [inRange8, Bool.and_eq_true, decide_eq_true_eq, Config.memSize]
    omega

/-! ### The 8-byte read (R53) -/

theorem State.load_of_inRange {s : State} {a : Word} (h : a.toNat ≤ 0xFFF8) :
    s.load a = s ∧ s.loadValue a = le64 (s.mem.readBytes a.toNat 8) := by
  obtain ⟨-, hload⟩ | ⟨hr, -⟩ := s.load_cases a
  · exact hload
  · exact absurd ((inRange8_iff a).2 h) (Bool.eq_false_iff.1 hr)

theorem State.load_of_outOfRange {s : State} {a : Word} (h : 0xFFF8 < a.toNat) :
    s.load a = s.raise .ADR ∧ s.loadValue a = 0 := by
  obtain ⟨hr, -⟩ | ⟨-, hload⟩ := s.load_cases a
  · exact absurd ((inRange8_iff a).1 hr) (Nat.not_le.2 h)
  · exact hload

/-- Settles O8: the two cases of a load, with the value of the bytes as their sum. -/
theorem eightByteRead : Obligations.EightByteRead := by
  refine fun s a => ⟨fun h => ?_, fun h => ?_⟩
  · obtain ⟨hload, hvalue⟩ := State.load_of_inRange (s := s) h
    refine ⟨hload, _, s.mem.read8_of_inRange ((inRange8_iff a).2 h), hvalue, ?_⟩
    rw [toNat_le64 (s.mem.length_readBytes _ _), leNat_readBytes]
  · obtain ⟨hload, hvalue⟩ := State.load_of_outOfRange (s := s) h
    exact ⟨s.mem.read8_of_not_inRange (inRange8_eq_false h), hvalue, hload⟩

/-! ### The 8-byte write (R54) -/

theorem State.store_of_inRange {s : State} {a : Word} (v : Word) (h : a.toNat ≤ 0xFFF8) :
    s.store a v = s.setMem (s.mem.writeBytes a.toNat (wordBytes v)) := by
  obtain ⟨-, hstore⟩ | ⟨hr, -⟩ := s.store_cases a v
  · exact hstore
  · exact absurd ((inRange8_iff a).2 h) (Bool.eq_false_iff.1 hr)

theorem State.store_of_outOfRange {s : State} {a : Word} (v : Word) (h : 0xFFF8 < a.toNat) :
    s.store a v = s.raise .ADR := by
  obtain ⟨hr, -⟩ | ⟨-, hstore⟩ := s.store_cases a v
  · exact absurd ((inRange8_iff a).1 hr) (Nat.not_le.2 h)
  · exact hstore

/-- Eight bytes hold a value exactly when they are the value's bytes in order (R54, R56). -/
theorem holds8_iff {s : State} {a v : Word} : Holds8 s a v ↔ s.mem.readBytes a.toNat 8 = wordBytes v := by
  constructor
  · intro h
    apply List.ext_getElem? fun k => ?_
    by_cases hk : k < 8
    · rw [Memory.getElem?_readBytes _ _ _ _ hk, getElem?_wordBytes v k hk, h k hk]
    · rw [List.getElem?_eq_none (by simpa using hk), List.getElem?_eq_none (by simpa using hk)]
  · intro h k hk
    have hbyte := getElem?_wordBytes v k hk
    rw [← h, Memory.getElem?_readBytes _ _ _ _ hk] at hbyte
    exact Option.some.inj hbyte

/-- Eight bytes hold the value they spell. -/
theorem holds8_le64 (s : State) (a : Word) : Holds8 s a (le64 (s.mem.readBytes a.toNat 8)) :=
  holds8_iff.2 (wordBytes_le64 _ (s.mem.length_readBytes _ _)).symm

/-- What eight bytes hold is the value they spell. -/
theorem le64_of_holds8 {s : State} {a v : Word} (h : Holds8 s a v) : le64 (s.mem.readBytes a.toNat 8) = v := by
  rw [holds8_iff.1 h, le64_wordBytes]

/-- An in-range store is read back, in canonical memory. -/
theorem holds8_store {s : State} (hwf : s.mem.wf = true) {a : Word} (v : Word) (h : a.toNat ≤ 0xFFF8) :
    Holds8 (s.store a v) a v := by
  rw [holds8_iff, State.store_of_inRange v h]
  have hfit : a.toNat + (wordBytes v).length ≤ Config.memSize := by
    rw [length_wordBytes]
    exact Nat.add_le_add_right h 8
  simpa using Memory.readBytes_writeBytes hwf a.toNat (wordBytes v) hfit

/-- A store changes no byte outside its eight (R54). -/
theorem sameMemExcept8_store (s : State) (a v : Word) : SameMemExcept8 a s (s.store a v) := by
  intro c hc
  obtain ⟨-, h⟩ | ⟨-, h⟩ := s.store_cases a v
  · rw [h, State.setMem_mem]
    exact Memory.readByte_writeBytes_of_outside _ _ _ (by rwa [length_wordBytes])
  · rw [h, State.raise_mem]

/-- Settles O9: the two cases of a store, the bytes read back in canonical memory. -/
theorem eightByteWrite : Obligations.EightByteWrite := by
  refine fun s a v ⟨hwf, _⟩ => ⟨fun h => ⟨?_, holds8_store hwf v h, sameMemExcept8_store s a v⟩, fun h => ?_⟩
  · exact ⟨_, by rw [Memory.write8, if_pos ((inRange8_iff a).2 h)], State.store_of_inRange v h⟩
  · exact ⟨s.mem.write8_of_not_inRange v (inRange8_eq_false h), State.store_of_outOfRange v h⟩

/-! ### The loader (R68, R263) -/

/-- A loaded byte lands at its address or is dropped, and no other byte changes (R68). -/
theorem Memory.readByte_loadByte {m : Memory} (hwf : m.wf = true) (a c : Nat) (b : Byte) :
    (m.loadByte a b).readByte c = if c = a ∧ a < Config.memSize then b else m.readByte c := by
  rw [Memory.loadByte]
  split_ifs with ha hc hc
  · rw [hc.1, Memory.readByte_writeByte_self hwf]
  · exact m.readByte_writeByte_of_ne a b fun h => hc ⟨h, ha⟩
  · exact absurd hc.2 ha
  · rfl

/-- A loaded line changes no byte outside it, and none outside memory (R263). -/
theorem Memory.readByte_loadBytes_of_outside {m : Memory} (hwf : m.wf = true) {a c : Nat} {bs : List Byte}
    (hc : ¬(a ≤ c ∧ c < a + bs.length ∧ c < Config.memSize)) : (m.loadBytes a bs).readByte c = m.readByte c := by
  induction bs generalizing m a with
  | nil => rfl
  | cons b bs ih =>
    rw [List.length_cons] at hc
    rw [Memory.loadBytes, ih (Memory.wf_loadByte hwf a b) (by omega), Memory.readByte_loadByte hwf, if_neg (by omega)]

/-- Byte `k` of a loaded line is at `a + k` when that lies inside memory (R263). -/
theorem Memory.readByte_loadBytes_of_inside {m : Memory} (hwf : m.wf = true) {a k : Nat} {b : Byte} {bs : List Byte}
    (hb : bs[k]? = some b) (hk : a + k < Config.memSize) : (m.loadBytes a bs).readByte (a + k) = b := by
  induction bs generalizing m a k with
  | nil => cases hb
  | cons b' bs ih =>
    have hwf' := Memory.wf_loadByte hwf a b'
    cases k with
    | zero =>
      cases hb
      rw [Memory.loadBytes, Memory.readByte_loadBytes_of_outside hwf' (by omega), Memory.readByte_loadByte hwf,
        if_pos ⟨rfl, hk⟩]
    | succ k =>
      rw [Nat.add_succ, ← Nat.succ_add] at hk ⊢
      exact ih hwf' hb hk

theorem Memory.loadImage_append (m : Memory) (image image' : List (Nat × List Byte)) :
    m.loadImage (image ++ image') = (m.loadImage image).loadImage image' := by
  induction image generalizing m with
  | nil => rfl
  | cons line lines ih => exact ih _

/-- Settles O10: a byte and a line by the laws of the loader, an image line by line. -/
theorem loaderWritesBytesAndDropsOutside : Obligations.LoaderWritesBytesAndDropsOutside := by
  refine ⟨fun m a c b hwf => ⟨Memory.wf_loadByte hwf a b, Memory.readByte_loadByte hwf a c b⟩,
    fun m a bs hwf => ⟨Memory.wf_loadBytes hwf a bs, fun k b hb hk => Memory.readByte_loadBytes_of_inside hwf hb hk,
      fun c hc => Memory.readByte_loadBytes_of_outside hwf hc⟩,
    ⟨rfl, fun image a bs => State.reset.mem.loadImage_append image [(a, bs)]⟩,
    fun image => ⟨Memory.wf_loadImage State.wf_reset_mem image, rfl⟩⟩

end Machine
end Sys2Proof
end

section
/-! Rules about every instruction: the registers (R25), the flags (R29) and the memory (R58, R117) it may change, and
the invariant that every step keeps. -/

namespace Sys2Proof.Machine

/-! ### Registers (R25) -/

theorem sameRegsExcept_pcUpdate {changed : List RegId} {s u : State} (p : Word) (h : SameRegsExcept changed s u) :
    SameRegsExcept changed s (u.pcUpdate p) :=
  fun q hq => (u.pcUpdate_reg p q).trans (h q hq)

/-- Writing a listed register keeps the frame. -/
theorem sameRegsExcept_setReg {changed : List RegId} {s u : State} {r : RegId} (v : Word)
    (h : SameRegsExcept changed s u) (hr : r ∈ changed) : SameRegsExcept changed s (u.setReg r v) := by
  intro q hq
  have hne : q ≠ r := fun e => hq (e ▸ hr)
  exact (u.setReg_reg_of_ne r q v hne).trans (h q hq)

theorem sameRegsExcept_condMove (s : State) (c : Cond) (rA rB : RegId) :
    SameRegsExcept [rB] s (s.condMove c rA rB) := by
  intro q hq
  rw [State.condMove_reg, if_neg fun ⟨_, hqr, _⟩ => List.ne_of_not_mem_cons hq hqr]

theorem sameRegsExcept_opq (s : State) (rB : RegId) (e : Word) (o : Bool) :
    SameRegsExcept [rB] s (s.opq rB e o) := by
  intro q hq
  rw [State.opq_reg, if_neg fun ⟨hqr, _⟩ => List.ne_of_not_mem_cons hq hqr]

/-- The registers of R25 are all that an instruction writes, by the constructors of `Instr`. -/
theorem exec_sameRegsExcept {i : Instr} {s t : State} (h : exec i s = .next t) :
    SameRegsExcept (writtenRegs i) s t := by
  cases i <;> cases h
  case halt | illegal => exact sameRegsExcept_of_regs_eq _ rfl
  case nop => exact sameRegsExcept_of_regs_eq _ (s.pcUpdate_regs _)
  case rrmovq | cmovle | cmovl | cmove | cmovne | cmovge | cmovg => exact sameRegsExcept_condMove s _ _ _
  case reservedCmov7 | reservedCmov8to15 => exact sameRegsExcept_of_regs_eq _ (s.pcUpdate_regs _)
  case irmovq =>
    exact sameRegsExcept_pcUpdate _ (sameRegsExcept_setReg _ (sameRegsExcept_of_regs_eq _ rfl) (.head _))
  case rmmovq => exact sameRegsExcept_pcUpdate _ (sameRegsExcept_of_regs_eq _ (s.store_regs _ _))
  case mrmovq =>
    exact sameRegsExcept_pcUpdate _ (sameRegsExcept_setReg _ (sameRegsExcept_of_regs_eq _ (s.load_regs _)) (.head _))
  case addq | subq | andq | xorq | reservedOpq4to7 | reservedOpq8to15 => exact sameRegsExcept_opq s _ _ _
  case jmp | jle | jl | je | jne | jge | jg | reservedJump7 | reservedJump8to15 =>
    exact sameRegsExcept_of_regs_eq _ (s.jump_regs _ _)
  case call | pushq =>
    exact sameRegsExcept_pcUpdate _
      (sameRegsExcept_setReg _ (sameRegsExcept_of_regs_eq _ (s.store_regs _ _)) (.head _))
  case ret =>
    exact sameRegsExcept_pcUpdate _ (sameRegsExcept_setReg _ (sameRegsExcept_of_regs_eq _ (s.load_regs _)) (.head _))
  case popq =>
    exact sameRegsExcept_pcUpdate _ (sameRegsExcept_setReg _
      (sameRegsExcept_setReg _ (sameRegsExcept_of_regs_eq _ (s.load_regs _)) (.head _)) (.tail _ (.head _)))

/-- Settles O25: by the rule of the registers. -/
theorem registersWrittenByInstruction : Obligations.RegistersWrittenByInstruction := fun _ _ _ => exec_sameRegsExcept

/-! ### Flags (R29, R114) -/

/-- An instruction keeps the flags, or is of class OPQ and sets them from a result and some overflow. -/
theorem exec_cc_cases {i : Instr} {s t : State} (h : exec i s = .next t) :
    t.cc = s.cc ∨ (i.iclass = some .OPQ ∧ ∃ e o, t.cc = .ofResult e o) := by
  cases i <;> cases h
  case addq | subq | andq | xorq | reservedOpq4to7 | reservedOpq8to15 => exact .inr ⟨rfl, _, _, s.opq_cc _ _ _⟩
  all_goals refine .inl ?_
  case halt | illegal => rfl
  case rrmovq | cmovle | cmovl | cmove | cmovne | cmovge | cmovg | reservedCmov7 | reservedCmov8to15 =>
    exact s.condMove_cc _ _ _
  case jmp | jle | jl | je | jne | jge | jg | reservedJump7 | reservedJump8to15 => exact s.jump_cc _ _
  case nop | irmovq => exact State.pcUpdate_cc _ _
  case rmmovq | call | pushq => exact (State.pcUpdate_cc _ _).trans (s.store_cc _ _)
  case mrmovq | ret | popq => exact (State.pcUpdate_cc _ _).trans (s.load_cc _)

/-- Settles O23: the instruction at PC has the class of the byte at PC. -/
theorem flagsChangeOnlyByOpq : Obligations.FlagsChangeOnlyByOpq := by
  intro s t h hne
  obtain ⟨-, ⟨i, hf, hx⟩ | ⟨e, -, rfl⟩⟩ := step_cases h
  · obtain ⟨-, hclass⟩ := State.iclass_of_fetch hf
    obtain hcc | ⟨hopq, -⟩ := exec_cc_cases hx
    · exact hcc
    · exact absurd (hclass.symm.trans hopq) hne
  · exact s.raise_cc .ADR

/-! ### Memory (R58, R117) -/

/-- An instruction keeps memory, or stores the bytes of a word in range at its store address. -/
theorem exec_mem_cases {i : Instr} {s t : State} (h : exec i s = .next t) :
    t.mem = s.mem ∨
    ∃ a v, storeAddr i s = some a ∧ a.toNat ≤ 0xFFF8 ∧ t.mem = s.mem.writeBytes a.toNat (wordBytes v) := by
  have hstore : ∀ a v, (s.store a v).mem = s.mem ∨
      a.toNat ≤ 0xFFF8 ∧ (s.store a v).mem = s.mem.writeBytes a.toNat (wordBytes v) := fun a v => by
    obtain ⟨hr, he⟩ | ⟨-, he⟩ := s.store_cases a v
    · exact .inr ⟨(inRange8_iff a).1 hr, by rw [he, State.setMem_mem]⟩
    · exact .inl (by rw [he, State.raise_mem])
  cases i <;> cases h
  case rmmovq | call | pushq =>
    rw [State.pcUpdate_mem]
    exact (hstore _ _).imp_right fun ⟨hr, he⟩ => ⟨_, _, rfl, hr, he⟩
  all_goals refine .inl ?_
  case halt | illegal => rfl
  case rrmovq | cmovle | cmovl | cmove | cmovne | cmovge | cmovg | reservedCmov7 | reservedCmov8to15 =>
    exact s.condMove_mem _ _ _
  case addq | subq | andq | xorq | reservedOpq4to7 | reservedOpq8to15 => exact s.opq_mem _ _ _
  case jmp | jle | jl | je | jne | jge | jg | reservedJump7 | reservedJump8to15 => exact s.jump_mem _ _
  case nop | irmovq => exact State.pcUpdate_mem _ _
  case mrmovq | ret | popq => exact (State.pcUpdate_mem _ _).trans (s.load_mem _)

/-- Only rmmovq, pushq and call have an address they store to. -/
theorem iclass_of_storeAddr {i : Instr} {s : State} {a : Word} (h : storeAddr i s = some a) :
    i.iclass ∈ [some .RMMOVQ, some .PUSHQ, some .CALL] := by
  cases i
  case rmmovq | pushq | call => simp [Instr.iclass]
  all_goals cases h

/-- Settles O24: by the two cases of memory, where a store writes only its eight bytes. -/
theorem memoryChangesOnlyWhereStored : Obligations.MemoryChangesOnlyWhereStored := by
  refine ⟨fun i s t h => ?_, fun s t h hclass => ?_⟩
  · obtain hm | ⟨a, v, ha, hr, hm⟩ := exec_mem_cases h
    · have hsame : SameMem s t := sameMem_of_mem_eq hm
      split
      · exact ⟨fun c _ => hsame c, fun _ => hsame⟩
      · exact hsame
    · rw [ha]
      refine ⟨fun c hc => ?_, fun hout => absurd hr (Nat.not_le.2 hout)⟩
      rw [hm]
      exact Memory.readByte_writeBytes_of_outside _ _ _ (by rwa [length_wordBytes])
  · obtain ⟨-, ⟨i, hf, hx⟩ | ⟨e, -, rfl⟩⟩ := step_cases h
    · obtain ⟨-, hi⟩ := State.iclass_of_fetch hf
      obtain hm | ⟨a, v, ha, -⟩ := exec_mem_cases hx
      · exact sameMem_of_mem_eq hm
      · exact absurd (hi ▸ iclass_of_storeAddr ha) hclass
    · exact sameMem_of_mem_eq (s.raise_mem .ADR)

/-! ### The invariant -/

/-- No result is both zero and negative (R114). -/
theorem Flags.ofResult_not_zf_and_sf (e : Word) (o : Bool) :
    ¬((Flags.ofResult e o).zf = true ∧ (Flags.ofResult e o).sf = true) := by
  rintro ⟨hz, hs⟩
  have hz : e.toInt = 0 := of_decide_eq_true hz
  have hs : e.toInt < 0 := of_decide_eq_true hs
  omega

/-- Every instruction keeps the invariant: by the cases of its memory and of its flags. -/
theorem exec_inv {i : Instr} {s t : State} (hinv : s.Inv) (h : exec i s = .next t) : t.Inv := by
  obtain ⟨hwf, hflags⟩ := hinv
  constructor
  · obtain hm | ⟨a, v, -, hr, hm⟩ := exec_mem_cases h
    · rwa [hm]
    · rw [hm]
      refine Memory.wf_writeBytes hwf _ _ ?_
      rw [length_wordBytes]
      exact Nat.add_le_add_right hr 8
  · obtain hcc | ⟨-, e, o, hcc⟩ := exec_cc_cases h
    · rwa [hcc]
    · rw [hcc]
      exact Flags.ofResult_not_zf_and_sf e o

/-- Settles O21: an instruction keeps the invariant, and a Fetch ADR changes STAT alone. -/
theorem everyStepKeepsTheInvariant : Obligations.EveryStepKeepsTheInvariant := by
  intro s t hinv h
  obtain ⟨-, ⟨i, -, hx⟩ | ⟨e, -, rfl⟩⟩ := step_cases h
  · exact exec_inv hinv hx
  · exact hinv

/-- Settles O22: loading keeps the canonical form and does not touch the flags of reset. -/
theorem resetMeetsTheInvariant : Obligations.ResetMeetsTheInvariant := by
  have hflags : ¬(State.reset.cc.zf = true ∧ State.reset.cc.sf = true) := by decide
  exact ⟨⟨State.wf_reset_mem, hflags⟩, fun image => ⟨Memory.wf_loadImage State.wf_reset_mem image, hflags⟩⟩

end Sys2Proof.Machine
end

section
/-! The family `40_step_skeleton.md`: the instruction at PC (R110, R111, R124), where STAT becomes ADR (R231), and what
a step that ends the run keeps (R236). -/

namespace Sys2Proof

/-- The length of an encoding, by class (R84, R89). -/
theorem length_encode (i : Instr) : (encode i).length = (i.iclass.map IClass.length).getD 1 := by
  cases i <;> rfl

theorem length_encode_bounds (i : Instr) : 1 ≤ (encode i).length ∧ (encode i).length ≤ Config.maxLength := by
  rw [length_encode]
  cases i.iclass with
  | none => decide
  | some c => cases c <;> decide

namespace Machine

/-! ### The instruction at PC -/

theorem State.fetch_of_decode {s : State} {i : Instr} {rest : List Byte} (hin : s.pcInside)
    (h : decode s.fetchWindow = .ok (i, rest)) : s.fetch = .ok i := by
  simp only [State.fetch, (inRange1_iff _).2 hin, h, if_true]

/-- An instruction whose bytes lie at PC is the one that Fetch reads. -/
theorem State.fetch_of_at {s : State} {i : Instr} (hwf : i.wf = true) (hat : s.at i) : s.fetch = .ok i := by
  obtain ⟨hfit, hbytes⟩ := hat
  obtain ⟨hpos, hmax⟩ := length_encode_bounds i
  have hin : s.pcInside := by
    rw [State.pcInside]
    omega
  have hlen : (encode i).length ≤ min Config.maxLength (Config.memSize - s.pc.toNat) :=
    Nat.le_min.2 ⟨hmax, Nat.le_sub_of_add_le' hfit⟩
  have hwindow : ∃ rest, s.fetchWindow = encode i ++ rest := by
    rw [State.fetchWindow, ← Nat.add_sub_cancel' hlen, Memory.readBytes_add, hbytes]
    exact ⟨_, rfl⟩
  obtain ⟨rest, hw⟩ := hwindow
  exact State.fetch_of_decode hin (hw ▸ decode_encode hwf rest)

/-- The instruction that Fetch reads is well-formed and its bytes lie at PC. -/
theorem State.at_of_fetch {s : State} {i : Instr} (h : s.fetch = .ok i) : i.wf = true ∧ s.at i := by
  obtain ⟨hin, ⟨j, rest, hd, hf⟩ | ⟨e, -, hf⟩⟩ | ⟨-, hf⟩ := s.fetch_cases
  · cases h.symm.trans hf
    obtain ⟨hwf, hw⟩ := readsEncoding_decode _ _ _ hd
    have hlen := congrArg List.length hw
    rw [State.length_fetchWindow, List.length_append] at hlen
    refine ⟨hwf, ?_, ?_⟩
    · change s.pc.toNat + (encode i).length ≤ Config.memSize
      omega
    · rw [State.fetchWindow, hlen, Memory.readBytes_add] at hw
      exact (List.append_inj hw (Memory.length_readBytes _ _ _)).1
  · cases h.symm.trans hf
  · cases h.symm.trans hf

/-- Fetch succeeds when the instruction's bytes lie inside memory. -/
theorem State.fetch_ok_of_fits {s : State} (h : s.pc.toNat + opcodeLength s.opcode ≤ Config.memSize) :
    ∃ i, s.fetch = .ok i := by
  have hpos := opcodeLength_pos s.opcode
  have hin : s.pcInside := lt_of_lt_of_le (Nat.lt_add_of_pos_right hpos) h
  have hmax : opcodeLength s.opcode ≤ Config.maxLength := by
    unfold opcodeLength
    split
    · rename_i c _
      cases c <;> decide
    · decide
  obtain ⟨rest, hw⟩ := State.fetchWindow_eq_cons hin
  have hlen := congrArg List.length hw
  rw [State.length_fetchWindow, List.length_cons] at hlen
  obtain ⟨-, i, tail, hd, -⟩ | ⟨hshort, -⟩ := readsLength_decode s.opcode rest
  · exact ⟨i, State.fetch_of_decode hin (hw ▸ hd)⟩
  · omega

/-- Settles O12: the instruction whose bytes lie at PC is the one fetched. -/
theorem stepRunsTheEncodedInstruction : Obligations.StepRunsTheEncodedInstruction :=
  fun _ _ hrun hwf hat => step_of_fetch_ok hrun (State.fetch_of_at hwf hat)

/-- Settles O14: by the three other values of STAT. -/
theorem noStepOnceStatIsNotAok : Obligations.NoStepOnceStatIsNotAok := by
  intro s hs
  cases hstat : s.stat with
  | AOK => exact absurd hstat hs
  | HLT | ADR | INS => simp only [step, hstat]

/-! ### Fetch ADR (R124) -/

/-- Fetch reads an instruction that lies at PC, or fails and the instruction does not fit in memory. -/
theorem State.fetch_fits_cases (s : State) :
    (∃ i, s.fetch = .ok i ∧ i.wf = true ∧ s.at i ∧ s.pcInside ∧
      s.pc.toNat + opcodeLength s.opcode ≤ Config.memSize) ∨
    (∃ e, s.fetch = .error e) ∧ (s.pcInside → Config.memSize < s.pc.toNat + opcodeLength s.opcode) := by
  by_cases hfit : s.pc.toNat + opcodeLength s.opcode ≤ Config.memSize
  · obtain ⟨i, hf⟩ := State.fetch_ok_of_fits hfit
    obtain ⟨hwf, hat⟩ := State.at_of_fetch hf
    exact .inl ⟨i, hf, hwf, hat, (State.iclass_of_fetch hf).1, hfit⟩
  · refine .inr ⟨?_, fun _ => Nat.lt_of_not_le hfit⟩
    by_cases hin : s.pcInside
    · exact State.fetch_error_of_not_fits hin (Nat.lt_of_not_le hfit)
    · obtain ⟨hlt, -⟩ | ⟨-, hf⟩ := s.fetch_cases
      · exact absurd hlt hin
      · exact ⟨_, hf⟩

theorem opcodeLength_of_class {b : Byte} {c : IClass} (h : IClass.ofNibble (highNibble b) = some c) :
    opcodeLength b = c.length := by
  simp only [opcodeLength, h]

/-- Settles O15: the limit of a format is where its length passes the end of memory. -/
theorem fetchAdrByFormat : Obligations.FetchAdrByFormat := by
  intro s hrun hin c hc limit
  have hlimit : limit + c.length = Config.memSize + 1 := by
    cases c <;> rfl
  have hlen := opcodeLength_of_class hc
  obtain ⟨i, hf, hwf, hat, -, hfit⟩ | ⟨⟨e, hf⟩, hnot⟩ := s.fetch_fits_cases
  · exact ⟨fun _ => by omega, fun _ => ⟨i, hwf, hat, step_of_fetch_ok hrun hf⟩⟩
  · have hnot := hnot hin
    exact ⟨fun _ => step_of_fetch_error hrun hf, fun _ => by omega⟩

/-! ### ADR (R231) -/

theorem State.store_stat_eq_ADR {s : State} (hrun : s.running) (a v : Word) :
    (s.store a v).stat = .ADR ↔ 0xFFF8 < a.toNat := by
  by_cases h : a.toNat ≤ 0xFFF8
  · rw [State.store_of_inRange v h, State.setMem_stat, hrun]
    exact iff_of_false Stat.noConfusion (Nat.not_lt.2 h)
  · rw [State.store_of_outOfRange v (Nat.lt_of_not_le h)]
    exact iff_of_true rfl (Nat.lt_of_not_le h)

theorem State.load_stat_eq_ADR {s : State} (hrun : s.running) (a : Word) :
    (s.load a).stat = .ADR ↔ 0xFFF8 < a.toNat := by
  by_cases h : a.toNat ≤ 0xFFF8
  · rw [(State.load_of_inRange h).1, hrun]
    exact iff_of_false Stat.noConfusion (Nat.not_lt.2 h)
  · rw [(State.load_of_outOfRange (Nat.lt_of_not_le h)).1]
    exact iff_of_true rfl (Nat.lt_of_not_le h)

/-- An instruction ends with ADR exactly when its data access is out of range (R231 A4, A5). -/
theorem exec_stat_eq_ADR {i : Instr} {s t : State} (hrun : s.running) (h : exec i s = .next t) :
    t.stat = .ADR ↔ ∃ a, dataAddr i s = some a ∧ 0xFFF8 < a.toNat := by
  have haccess : ∀ a : Word, (∃ a', some a = some a' ∧ 0xFFF8 < a'.toNat) ↔ 0xFFF8 < a.toNat := fun a => by simp
  have hne : s.stat ≠ .ADR := fun he => Stat.noConfusion (hrun.symm.trans he)
  cases i <;> cases h
  case rmmovq | call | pushq =>
    rw [State.pcUpdate_stat]
    exact (State.store_stat_eq_ADR hrun _ _).trans (haccess _).symm
  case mrmovq | ret | popq =>
    rw [State.pcUpdate_stat]
    exact (State.load_stat_eq_ADR hrun _).trans (haccess _).symm
  all_goals refine iff_of_false (fun hadr => ?_) (fun ⟨_, he, _⟩ => nomatch he)
  case halt | illegal => cases hadr
  case nop => exact hne ((s.pcUpdate_stat _).symm.trans hadr)
  case irmovq rB _ => exact hne ((State.pcUpdate_stat (s.setReg rB _) _).symm.trans hadr)
  case rrmovq | cmovle | cmovl | cmove | cmovne | cmovge | cmovg | reservedCmov7 | reservedCmov8to15 =>
    exact hne ((s.condMove_stat _ _ _).symm.trans hadr)
  case addq | subq | andq | xorq | reservedOpq4to7 | reservedOpq8to15 =>
    exact hne ((s.opq_stat _ _ _).symm.trans hadr)
  case jmp | jle | jl | je | jne | jge | jg | reservedJump7 | reservedJump8to15 =>
    exact hne ((s.jump_stat _ _).symm.trans hadr)

/-- With PC inside memory an instruction that does not fit has a class, so its first byte is not illegal (R89). -/
theorem State.class_of_not_fits {s : State} (hin : s.pcInside)
    (h : Config.memSize < s.pc.toNat + opcodeLength s.opcode) :
    ∃ c, IClass.ofNibble (highNibble s.opcode) = some c ∧ 0x10000 < s.pc.toNat + c.length := by
  cases hc : IClass.ofNibble (highNibble s.opcode) with
  | none =>
    simp only [opcodeLength, hc] at h
    exact absurd (Nat.le_of_lt_succ h) (Nat.not_le.2 hin)
  | some c => exact ⟨c, rfl, opcodeLength_of_class hc ▸ h⟩

/-- Settles O16: where Fetch succeeds, ADR is that of the data access; where it fails, the instruction does not fit. -/
theorem adrExactlyInItsSituations : Obligations.AdrExactlyInItsSituations := by
  intro s t h
  obtain ⟨hrun, -⟩ := step_cases h
  obtain ⟨i, hf, hwf, hat, hin, hfit⟩ | ⟨⟨e, hf⟩, hnot⟩ := s.fetch_fits_cases
  · rw [step_of_fetch_ok hrun hf] at h
    rw [exec_stat_eq_ADR hrun h]
    constructor
    · rintro ⟨a, ha, hout⟩
      exact .inr (.inr ⟨i, a, hwf, hat, ha, hout⟩)
    · rintro (hpc | ⟨-, c, hc, hlen⟩ | ⟨j, a, hwf', hat', ha, hout⟩)
      · exact absurd hin hpc
      · rw [opcodeLength_of_class hc] at hfit
        exact absurd hfit (Nat.not_le.2 hlen)
      · cases hf.symm.trans (State.fetch_of_at hwf' hat')
        exact ⟨a, ha, hout⟩
  · cases h.symm.trans (step_of_fetch_error hrun hf)
    refine iff_of_true rfl ?_
    by_cases hin : s.pcInside
    · exact .inr (.inl ⟨hin, State.class_of_not_fits hin (hnot hin)⟩)
    · exact .inl hin

/-! ### What a step that ends the run keeps (R236, R237) -/

/-- An instruction that stores accesses the address it stores to. -/
theorem dataAddr_of_storeAddr {i : Instr} {s : State} {a : Word} (h : storeAddr i s = some a) :
    dataAddr i s = some a := by
  cases i
  case rmmovq | pushq | call => exact h
  all_goals cases h

/-- An instruction that ends with ADR has stored nothing (R54). -/
theorem exec_mem_of_ADR {i : Instr} {s t : State} (hrun : s.running) (h : exec i s = .next t) (hadr : t.stat = .ADR) :
    t.mem = s.mem := by
  obtain ⟨a, ha, hout⟩ := (exec_stat_eq_ADR hrun h).1 hadr
  obtain hm | ⟨a', v, ha', hr, -⟩ := exec_mem_cases h
  · exact hm
  · cases ha.symm.trans (dataAddr_of_storeAddr ha')
    exact absurd hr (Nat.not_le.2 hout)

/-- An instruction of class OPQ accesses no memory. -/
theorem dataAddr_of_iclass_OPQ {i : Instr} (s : State) (h : i.iclass = some .OPQ) : dataAddr i s = none := by
  cases i
  case addq | subq | andq | xorq | reservedOpq4to7 | reservedOpq8to15 => rfl
  all_goals cases h

/-- An instruction that ends with ADR keeps the flags. -/
theorem exec_cc_of_ADR {i : Instr} {s t : State} (hrun : s.running) (h : exec i s = .next t) (hadr : t.stat = .ADR) :
    t.cc = s.cc := by
  obtain ⟨a, ha, -⟩ := (exec_stat_eq_ADR hrun h).1 hadr
  obtain hcc | ⟨hopq, -⟩ := exec_cc_cases h
  · exact hcc
  · cases (dataAddr_of_iclass_OPQ s hopq).symm.trans ha

/-- An instruction that ends with STAT other than AOK keeps PC (R26). -/
theorem exec_pc_of_stat_ne_AOK {i : Instr} {s t : State} (hwf : i.wf = true) (h : exec i s = .next t)
    (hstat : t.stat ≠ .AOK) : t.pc = s.pc :=
  (newPcOfEveryInstruction i s t hwf h).trans (if_neg hstat)

/-- A step that leaves AOK changes STAT alone, or is a Memory-phase ADR of the instruction at PC (R236, R237). -/
theorem step_fault_cases {s t : State} (h : step s = .next t) (hstat : t.stat ≠ .AOK) :
    t = s.raise t.stat ∨ (s.running ∧ t.stat = .ADR ∧ ∃ i, s.fetch = .ok i ∧ exec i s = .next t) := by
  obtain ⟨hrun, ⟨i, hf, hx⟩ | ⟨e, -, rfl⟩⟩ := step_cases h
  · obtain ⟨-, rfl⟩ | ⟨-, rfl⟩ | haok | hadr := exec_stat_cases hrun hx
    · exact .inl rfl
    · exact .inl rfl
    · exact absurd haok hstat
    · exact .inr ⟨hrun, hadr, i, hf, hx⟩
  · exact .inl rfl

/-- Settles O19: a Memory-phase ADR keeps PC, flags and memory, and its instruction writes only its registers. -/
theorem faultsArePreciseInPcFlagsAndMemory : Obligations.FaultsArePreciseInPcFlagsAndMemory := by
  intro s t h hstat
  obtain ht | ⟨hrun, hadr, i, hf, hx⟩ := step_fault_cases h hstat
  · rw [ht]
    exact ⟨rfl, rfl, rfl, .inl rfl⟩
  · obtain ⟨hwf, hat⟩ := State.at_of_fetch hf
    obtain ⟨a, ha, -⟩ := (exec_stat_eq_ADR hrun hx).1 hadr
    exact ⟨exec_pc_of_stat_ne_AOK hwf hx hstat, exec_cc_of_ADR hrun hx hadr, exec_mem_of_ADR hrun hx hadr,
      .inr ⟨hadr, i, hwf, hat, Option.isSome_of_mem ha, exec_sameRegsExcept hx⟩⟩

/-! ### The step is total while the machine runs (R122) -/

/-- Every instruction answers a next state. -/
theorem exec_total (i : Instr) (s : State) : ∃ t, exec i s = .next t := by
  cases i <;> exact ⟨_, rfl⟩

theorem step_total {s : State} (hrun : s.running) : ∃ t, step s = .next t := by
  cases hf : s.fetch with
  | ok i =>
    rw [step_of_fetch_ok hrun hf]
    exact exec_total i s
  | error e => exact ⟨_, step_of_fetch_error hrun hf⟩

/-- A run that starts inside memory shows ADR only with PC inside memory: the loop leaves before it steps outside. -/
theorem pcInside_of_mem_loop {fuel : Nat} {s t : State} (hrun : s.running) (hin : s.pcInside)
    (h : t ∈ loop fuel s) (hadr : t.stat = .ADR) : t.pcInside := by
  induction fuel generalizing s with
  | zero => cases h
  | succ fuel ih =>
    obtain ⟨u, hu⟩ := step_total hrun
    rw [loop_succ_of_next fuel hu, List.mem_cons] at h
    obtain rfl | h := h
    · have hstat : t.stat ≠ .AOK := by
        rw [hadr]
        decide
      obtain ⟨hpc, -⟩ := faultsArePreciseInPcFlagsAndMemory s t hu hstat
      rwa [State.pcInside, hpc]
    · split_ifs at h with hstop
      · cases h
      · obtain ⟨hurun, huin⟩ := State.stopped_eq_false.1 (Bool.eq_false_iff.2 hstop)
        exact ih hurun huin h

/-- Settles O13: Fetch fails outside memory, and a run from reset starts inside. -/
theorem stepIsTotalWhileRunning : Obligations.StepIsTotalWhileRunning := by
  refine ⟨fun _ => step_total, fun s hrun hout => ?_, fun fuel image t h hadr => ?_⟩
  · obtain ⟨hin, -⟩ | ⟨-, hf⟩ := s.fetch_cases
    · exact absurd hin hout
    · exact step_of_fetch_error hrun hf
  · have hrun : (State.boot image).running := rfl
    rw [run, State.raise_AOK_of_AOK hrun] at h
    exact pcInside_of_mem_loop hrun (Nat.two_pow_pos 16) h hadr

end Machine
end Sys2Proof
end

section
/-! The two presentations of the step agree (R124): the phase tables of R111 to R119 run the instruction that the
decoder reads. -/

namespace Sys2Proof.Machine

/-! ### The instruction that the temporaries describe -/

/-- The instruction whose parts Fetch has read into the temporaries. -/
def Fetched.instr (t : Fetched) : Instr :=
  match t.icode with
  | .HALT => .halt t.ifun
  | .NOP => .nop t.ifun
  | .RRMOVQ => decodeMove t.ifun t.rA t.rB
  | .IRMOVQ => .irmovq t.ifun t.rA t.rB t.valC
  | .RMMOVQ => .rmmovq t.ifun t.rA t.rB t.valC
  | .MRMOVQ => .mrmovq t.ifun t.rA t.rB t.valC
  | .OPQ => decodeOpq t.ifun t.rA t.rB
  | .JXX => decodeJump t.ifun t.valC
  | .CALL => .call t.ifun t.valC
  | .RET => .ret t.ifun
  | .PUSHQ => .pushq t.ifun t.rA t.rB
  | .POPQ => .popq t.ifun t.rA t.rB

/-- An encoding is byte 0, then the parts its class has (R81 to R83). -/
theorem Fetched.instr_wf_encode (t : Fetched) :
    t.instr.wf = true ∧ encode t.instr = nibbles t.icode.toNibble t.ifun ::
      ((if t.icode.hasRegByte then [regByte t.rA t.rB] else []) ++
        if t.icode.hasConst then wordBytes t.valC else []) := by
  obtain ⟨icode, ifun, rA, rB, valC, valP⟩ := t
  cases icode with
  | RRMOVQ => exact decodeMove_wf_encode ifun rA rB
  | OPQ => exact decodeOpq_wf_encode ifun rA rB
  | JXX => exact decodeJump_wf_encode ifun valC
  | HALT | NOP | IRMOVQ | RMMOVQ | MRMOVQ | CALL | RET | PUSHQ | POPQ => exact ⟨rfl, rfl⟩

/-! ### Decode to PC update (R112 to R119) -/

theorem condOfIfun_of_ge_8 {ifun : Nibble} (h : 8 ≤ ifun.toNat) : condOfIfun ifun = .never := by
  unfold condOfIfun
  split
  case h_8 => rfl
  all_goals omega

/-- The condition that the phase tables select is that of the row the decoder selects (R87, R115). -/
theorem exec_decodeMove (ifun : Nibble) (rA rB : RegId) (s : State) :
    exec (decodeMove ifun rA rB) s = .next (s.condMove (condOfIfun ifun) rA rB) := by
  obtain h | rfl | rfl | rfl | rfl | rfl | rfl | rfl | rfl := ifun_rows ifun
  · rw [decodeMove_of_ge_8 h, condOfIfun_of_ge_8 h]
    rfl
  all_goals rfl

theorem exec_decodeJump (ifun : Nibble) (dest : Word) (s : State) :
    exec (decodeJump ifun dest) s = .next (s.jump (condOfIfun ifun) dest) := by
  obtain h | rfl | rfl | rfl | rfl | rfl | rfl | rfl | rfl := ifun_rows ifun
  · rw [decodeJump_of_ge_8 h, condOfIfun_of_ge_8 h]
    rfl
  all_goals rfl

/-- A move whose condition does not hold writes NONE in the phase tables, that is, nothing (R118). -/
theorem State.condMove_eq_setReg (s : State) (c : Cond) (rA rB : RegId) :
    s.condMove c rA rB =
      (s.setReg (if condHolds c s.cc = true then rB else .NONE) (s.reg rA)).pcUpdate (s.valP 2) := by
  obtain ⟨hc, he⟩ | ⟨hc, he⟩ := s.condMove_cases c rA rB
  · rw [he, if_pos hc]
  · rw [he, if_neg (Bool.eq_false_iff.1 hc), State.setReg_NONE]

theorem Fetched.valE_of_reservedOpq {t : Fetched} (hc : t.icode = .OPQ) (h : 4 ≤ t.ifun.toNat) (draws : Nat)
    (valA valB : Word) : t.valE draws valA valB = Config.opqRsvdValE draws := by
  simp only [Fetched.valE, hc]
  split
  case h_5 => rfl
  all_goals omega

theorem Fetched.overflow_of_reservedOpq {t : Fetched} (h : 4 ≤ t.ifun.toNat) (draws : Nat) (valA valB valE : Word) :
    t.overflow draws valA valB valE = Config.opqRsvdOf draws := by
  unfold Fetched.overflow
  split
  case h_5 => rfl
  all_goals omega

/-- The phases of a reserved OPQ are its shared effect (R113, R114, R175). -/
theorem Fetched.laterPhases_reservedOpq {t : Fetched} {s : State} (hc : t.icode = .OPQ) (h : 4 ≤ t.ifun.toNat)
    (hvalP : t.valP = s.valP 2) : t.laterPhases s = s.opqReserved t.rB := by
  have hreserved : t.reservedOpq = true := by
    rw [Fetched.reservedOpq, hc]
    exact decide_eq_true h
  simp only [Fetched.laterPhases, hreserved, if_true, Fetched.valE_of_reservedOpq hc h, Fetched.execute,
    Fetched.overflow_of_reservedOpq h, Fetched.memory, Fetched.dstE, Fetched.dstM, Fetched.newPc, hc, hvalP]
  rfl

theorem exec_decodeOpq_of_ge_4 {ifun : Nibble} (h : 4 ≤ ifun.toNat) (rA rB : RegId) (s : State) :
    exec (decodeOpq ifun rA rB) s = .next (s.opqReserved rB) := by
  by_cases h8 : 8 ≤ ifun.toNat
  · rw [decodeOpq_of_ge_8 h8]
    rfl
  · rw [decodeOpq_of_4_to_7 ⟨h, by omega⟩]
    rfl

theorem Fetched.exec_instr_reservedOpq {t : Fetched} {s : State} (hc : t.icode = .OPQ) (h : 4 ≤ t.ifun.toNat)
    (hvalP : t.valP = s.valP 2) : exec t.instr s = .next (t.laterPhases s) := by
  rw [Fetched.laterPhases_reservedOpq hc h hvalP, Fetched.instr, hc]
  exact exec_decodeOpq_of_ge_4 h t.rA t.rB s

/-- From the temporaries on, the phase tables do what the instruction they describe means. -/
theorem Fetched.exec_instr (t : Fetched) (s : State) (h : t.valP = s.valP t.icode.length) :
    exec t.instr s = .next (t.laterPhases s) := by
  obtain ⟨icode, ifun, rA, rB, valC, valP⟩ := t
  change valP = s.valP icode.length at h
  subst h
  cases icode with
  | RRMOVQ =>
    exact (exec_decodeMove ifun rA rB s).trans (congrArg _ (s.condMove_eq_setReg (condOfIfun ifun) rA rB))
  | OPQ =>
    obtain h | h | rfl | rfl | rfl | rfl := ifun_rows_opq ifun
    · exact Fetched.exec_instr_reservedOpq rfl h.1 rfl
    · have h4 : 4 ≤ ifun.toNat := le_trans (Nat.le_add_left 4 4) h
      exact Fetched.exec_instr_reservedOpq rfl h4 rfl
    all_goals rfl
  | JXX => exact exec_decodeJump ifun valC s
  | HALT | NOP | IRMOVQ | RMMOVQ | MRMOVQ | CALL | RET | PUSHQ | POPQ => rfl

/-! ### Fetch (R111) -/

/-- Where the constant of a class begins, counted from PC: after byte 0 and the register byte, if any (R81). -/
def constOffset (c : IClass) : Nat := 1 + if c.hasRegByte then 1 else 0

theorem length_eq_constOffset_add (c : IClass) : c.length = constOffset c + if c.hasConst then 8 else 0 := rfl

/-- The temporaries that Fetch leaves when all bytes of the class lie in memory (R111). -/
def State.fetched (s : State) (c : IClass) : Fetched where
  icode := c
  ifun := lowNibble s.opcode
  rA := if c.hasRegByte then .ofNibble (highNibble (s.mem.readByte (s.pc.toNat + 1))) else .NONE
  rB := if c.hasRegByte then .ofNibble (lowNibble (s.mem.readByte (s.pc.toNat + 1))) else .NONE
  valC := if c.hasConst then le64 (s.mem.readBytes (s.pc.toNat + constOffset c) 8) else 0
  valP := s.valP c.length

/-- The address after `n` bytes does not wrap when PC lies inside memory. -/
theorem State.toNat_valP {s : State} (hin : s.pcInside) {n : Nat} (hn : n ≤ 10) :
    (s.valP n).toNat = s.pc.toNat + n := by
  rw [State.pcInside] at hin
  rw [State.valP, BitVec.toNat_add, BitVec.toNat_ofNat]
  omega

/-- F5 reads the register byte at PC + 1 when the class has one and the byte lies in memory. -/
theorem State.fetchRegs_eq {s : State} (hin : s.pcInside) (c : IClass) :
    s.fetchRegs c (s.pc + 1) = if s.pc.toNat + constOffset c ≤ Config.memSize
      then some ((s.fetched c).rA, (s.fetched c).rB, s.valP (constOffset c)) else none := by
  have hpc : (s.pc + 1).toNat = s.pc.toNat + 1 := State.toNat_valP hin (n := 1) (by decide)
  have hnext : s.pc + 1 + 1 = s.valP 2 := BitVec.add_assoc _ _ _
  have hrange : inRange1 (s.pc + 1) = true ↔ s.pc.toNat + 2 ≤ Config.memSize := by
    rw [inRange1_iff, hpc]
    rfl
  rw [State.fetchRegs, hpc, hnext]
  cases h : c.hasRegByte with
  | true =>
    simp only [State.fetched, constOffset, h, if_true]
    exact if_congr hrange rfl rfl
  | false =>
    simp only [State.fetched, constOffset, h, Bool.false_eq_true, if_false]
    exact (if_pos hin).symm

/-- F6 reads the eight bytes after them when the class has a constant and they lie in memory. -/
theorem State.fetchConst_eq {s : State} (hin : s.pcInside) {c : IClass}
    (hregs : s.pc.toNat + constOffset c ≤ Config.memSize) :
    s.fetchConst c (s.valP (constOffset c)) = if s.pc.toNat + c.length ≤ Config.memSize
      then some ((s.fetched c).valC, s.valP c.length) else none := by
  have haddr : (s.valP (constOffset c)).toNat = s.pc.toNat + constOffset c :=
    State.toNat_valP hin (by cases c <;> decide)
  rw [State.fetchConst]
  cases h : c.hasConst with
  | true =>
    have hlen : c.length = constOffset c + 8 := by
      simp only [length_eq_constOffset_add, h, if_true]
    have hnext : s.valP (constOffset c) + 8 = s.valP c.length := by
      rw [hlen, State.valP, State.valP, BitVec.add_assoc, BitVec.ofNat_add]
      rfl
    simp only [State.fetched, h, if_true, Memory.read8, haddr, hnext]
    by_cases hr : inRange8 (s.valP (constOffset c)) = true
    · have hfit := (inRange8_iff_add _).1 hr
      rw [haddr, Nat.add_assoc, ← hlen] at hfit
      rw [if_pos hr, if_pos hfit]
    · have hfit := mt (inRange8_iff_add _).2 hr
      rw [haddr, Nat.add_assoc, ← hlen] at hfit
      rw [if_neg hr, if_neg hfit]
  | false =>
    have hlen : c.length = constOffset c := by
      simp only [length_eq_constOffset_add, h, Bool.false_eq_true, if_false, Nat.add_zero]
    simp only [State.fetched, h, Bool.false_eq_true, if_false, hlen]
    exact (if_pos hregs).symm

/-- Fetch leaves its temporaries exactly when the bytes of the class lie in memory (R111, R124). -/
theorem State.fetchPhase_eq {s : State} (hin : s.pcInside) {c : IClass}
    (hc : IClass.ofNibble (highNibble s.opcode) = some c) :
    s.fetchPhase = if s.pc.toNat + c.length ≤ Config.memSize then .ok (s.fetched c) else .error .ADR := by
  have hle : constOffset c ≤ c.length := Nat.le_add_right _ _
  rw [State.opcode] at hc
  simp only [State.fetchPhase, (inRange1_iff _).2 hin, if_true, hc, State.fetchRegs_eq hin]
  by_cases hregs : s.pc.toNat + constOffset c ≤ Config.memSize
  · simp only [if_pos hregs, State.fetchConst_eq hin hregs]
    split_ifs
    · rfl
    · rfl
  · rw [if_neg hregs, if_neg (by omega)]

/-- Byte 0 and the register byte, if any, are spelled by the temporaries. -/
theorem State.readBytes_constOffset {s : State} {c : IClass} (hc : IClass.ofNibble (highNibble s.opcode) = some c) :
    s.mem.readBytes s.pc.toNat (constOffset c) = nibbles c.toNibble (s.fetched c).ifun ::
      if c.hasRegByte then [regByte (s.fetched c).rA (s.fetched c).rB] else [] := by
  have hb0 : nibbles c.toNibble (s.fetched c).ifun = s.opcode := by
    rw [← (IClass.ofNibble_eq_some _ c).1 hc]
    exact nibbles_high_low s.opcode
  rw [hb0]
  cases h : c.hasRegByte with
  | true => simp [constOffset, State.fetched, h, regByte, Memory.readBytes, State.opcode]
  | false => simp [constOffset, h, Memory.readBytes, State.opcode]

/-- The constant, if any, is spelled by the temporaries. -/
theorem State.readBytes_const (s : State) (c : IClass) :
    s.mem.readBytes (s.pc.toNat + constOffset c) (if c.hasConst then 8 else 0) =
      if c.hasConst then wordBytes (s.fetched c).valC else [] := by
  cases h : c.hasConst with
  | true => simp [State.fetched, h, wordBytes_le64]
  | false => rfl

/-- The bytes of a class at PC are the encoding of the instruction that the temporaries describe. -/
theorem State.at_fetched {s : State} {c : IClass} (hc : IClass.ofNibble (highNibble s.opcode) = some c)
    (hfit : s.pc.toNat + c.length ≤ Config.memSize) : s.at (s.fetched c).instr := by
  obtain ⟨-, henc⟩ := (s.fetched c).instr_wf_encode
  have hbytes : s.mem.readBytes s.pc.toNat c.length = encode (s.fetched c).instr := by
    rw [henc, length_eq_constOffset_add, Memory.readBytes_add, State.readBytes_constOffset hc, State.readBytes_const]
    rfl
  have hlen : (encode (s.fetched c).instr).length = c.length := by
    rw [← hbytes, Memory.length_readBytes]
  exact ⟨hlen ▸ hfit, hlen ▸ hbytes⟩

/-! ### The two steps -/

theorem phaseStep_of_fetchPhase_ok {s : State} {t : Fetched} (hrun : s.running) (h : s.fetchPhase = .ok t) :
    phaseStep s = .next (t.laterPhases s) := by
  have hstat : s.stat = .AOK := hrun
  simp only [phaseStep, hstat, h]

theorem phaseStep_of_fetchPhase_error {s : State} {x : Stat} (hrun : s.running) (h : s.fetchPhase = .error x) :
    phaseStep s = .next (s.raise x) := by
  have hstat : s.stat = .AOK := hrun
  simp only [phaseStep, hstat, h]

theorem State.fetchPhase_of_pc_outside {s : State} (hout : ¬s.pcInside) : s.fetchPhase = .error .ADR := by
  rw [State.fetchPhase, if_neg (mt (inRange1_iff _).1 hout)]

/-- F3: a first byte of no class ends the step with INS (R89). -/
theorem State.fetchPhase_of_illegal {s : State} (hin : s.pcInside)
    (hc : IClass.ofNibble (highNibble s.opcode) = none) : s.fetchPhase = .error .INS := by
  rw [State.opcode] at hc
  simp only [State.fetchPhase, (inRange1_iff _).2 hin, if_true, hc]

/-- With PC inside memory the phases of a running machine answer what its step answers, by the class of the byte at
PC. -/
theorem phaseStep_of_pcInside {s : State} (hrun : s.running) (hin : s.pcInside) : phaseStep s = step s := by
  cases hc : IClass.ofNibble (highNibble s.opcode) with
  | none =>
    rw [step_eq_raise_INS hrun hin ((IClass.ofNibble_highNibble_eq_none _).1 hc),
      phaseStep_of_fetchPhase_error hrun (State.fetchPhase_of_illegal hin hc)]
  | some c =>
    have hphase := State.fetchPhase_eq hin hc
    by_cases hfit : s.pc.toNat + c.length ≤ Config.memSize
    · rw [if_pos hfit] at hphase
      obtain ⟨hwf, -⟩ := (s.fetched c).instr_wf_encode
      rw [step_of_fetch_ok hrun (State.fetch_of_at hwf (State.at_fetched hc hfit)), Fetched.exec_instr _ s rfl,
        phaseStep_of_fetchPhase_ok hrun hphase]
    · rw [if_neg hfit] at hphase
      have hnot : Config.memSize < s.pc.toNat + opcodeLength s.opcode :=
        opcodeLength_of_class hc ▸ Nat.lt_of_not_le hfit
      obtain ⟨e, hf⟩ := State.fetch_error_of_not_fits hin hnot
      rw [step_of_fetch_error hrun hf, phaseStep_of_fetchPhase_error hrun hphase]

/-- Settles O20: Fetch reads the same instruction in both, and the later phases do what it means. -/
theorem phaseTablesAgreeWithInstructions : Obligations.PhaseTablesAgreeWithInstructions := by
  intro s
  by_cases hrun : s.running
  · by_cases hin : s.pcInside
    · exact phaseStep_of_pcInside hrun hin
    · obtain ⟨-, hadr, -⟩ := stepIsTotalWhileRunning
      rw [hadr s hrun hin, phaseStep_of_fetchPhase_error hrun (State.fetchPhase_of_pc_outside hin)]
  · rw [noStepOnceStatIsNotAok s hrun]
    cases hstat : s.stat with
    | AOK => exact absurd hstat hrun
    | HLT | ADR | INS => simp only [phaseStep, hstat]

end Sys2Proof.Machine
end

section
/-! The family `42_moves.md` again: register moves (R150 to R157), rmmovq (R159) and mrmovq (R160). -/

namespace Sys2Proof.Machine

/-! ### How the last phases end a step (R118, R119) -/

/-- What writes no register before a write leaves that write the only one. -/
theorem writesReg_setReg_of_regs_eq {s u : State} (h : u.regs = s.regs) (r : RegId) (v : Word) :
    WritesReg s (u.setReg r v) r v :=
  ⟨u.setReg_reg_self r v, sameRegsExcept_setReg v (sameRegsExcept_of_regs_eq [r] h) (.head _)⟩

/-- Once STAT is ADR the PC update is inhibited (R236). -/
theorem stopsWithAdr_pcUpdate {s u : State} (hstat : u.stat = .ADR) (hpc : u.pc = s.pc) (p : Word) :
    StopsWithAdr s (u.pcUpdate p) := by
  have hne : u.stat ≠ .AOK := by
    rw [hstat]
    decide
  exact ⟨(u.pcUpdate_stat p).trans hstat, (State.pcUpdate_pc_of_ne_AOK hne p).trans hpc⟩

/-- Write-back of one register and PC update, in a step that has raised nothing. -/
theorem writeBack_completes {s : State} (hrun : s.running) (r : RegId) (v p : Word) :
    WritesReg s ((s.setReg r v).pcUpdate p) r v ∧ AdvancesTo ((s.setReg r v).pcUpdate p) p ∧
      ((s.setReg r v).pcUpdate p).cc = s.cc ∧ SameMem s ((s.setReg r v).pcUpdate p) :=
  ⟨writesReg_pcUpdate p (writesReg_setReg s r v), advancesTo_pcUpdate (s := s.setReg r v) hrun p,
    State.pcUpdate_cc _ p, sameMem_of_mem_eq (State.pcUpdate_mem _ p)⟩

/-- Write-back still runs after a Memory-phase ADR, the PC update does not (R118, R236; D7). -/
theorem writeBack_after_ADR (s : State) (r : RegId) (v p : Word) :
    WritesReg s (((s.raise .ADR).setReg r v).pcUpdate p) r v ∧
      StopsWithAdr s (((s.raise .ADR).setReg r v).pcUpdate p) ∧
      (((s.raise .ADR).setReg r v).pcUpdate p).cc = s.cc ∧ SameMem s (((s.raise .ADR).setReg r v).pcUpdate p) :=
  ⟨writesReg_pcUpdate p (writesReg_setReg_of_regs_eq (s.raise_regs .ADR) r v), stopsWithAdr_pcUpdate rfl rfl p,
    State.pcUpdate_cc _ p, sameMem_of_mem_eq (State.pcUpdate_mem _ p)⟩

/-- A step that ends with the memory an in-range store left holds the word stored, and no other byte changes (R54). -/
theorem holds8_of_mem_eq_store {s t : State} (hinv : s.Inv) {a v : Word} (h : a.toNat ≤ 0xFFF8)
    (hmem : t.mem = (s.store a v).mem) : Holds8 t a v ∧ SameMemExcept8 a s t := by
  obtain ⟨hwf, -⟩ := hinv
  unfold Holds8 SameMemExcept8
  rw [hmem]
  exact ⟨holds8_store hwf v h, sameMemExcept8_store s a v⟩

theorem State.store_stat_of_inRange {s : State} {a : Word} (v : Word) (h : a.toNat ≤ 0xFFF8) :
    (s.store a v).stat = s.stat := by
  rw [State.store_of_inRange v h, State.setMem_stat]

/-! ### Register moves -/

/-- A conditional move writes rB with rA or with what it held, and moves PC on by 2 (R115, R118). -/
theorem condMove_completes {s : State} (hrun : s.running) (c : Cond) (rA rB : RegId) :
    WritesReg s (s.condMove c rA rB) rB (if condHolds c s.cc then s.reg rA else s.reg rB) ∧
      AdvancesTo (s.condMove c rA rB) (s.pc + 2) ∧ (s.condMove c rA rB).cc = s.cc ∧
      SameMem s (s.condMove c rA rB) := by
  refine ⟨⟨?_, sameRegsExcept_condMove s c rA rB⟩, ⟨(s.condMove_stat c rA rB).trans hrun, ?_⟩, s.condMove_cc c rA rB,
    sameMem_of_mem_eq (s.condMove_mem c rA rB)⟩
  · rw [State.condMove_reg]
    by_cases hB : rB = .NONE
    · subst hB
      simp
    · simp [hB]
  · exact (s.condMove_pc c rA rB).trans (if_pos hrun)

/-- Settles O29: the seven rows are one conditional move, each with its condition. -/
theorem movesWhenConditionHolds : Obligations.MovesWhenConditionHolds := by
  have hfetch : ∀ ifun : Nibble, FetchAdrFrom (nibbles IClass.RRMOVQ.toNibble ifun) 0xFFFF := fun ifun =>
    fetchAdrFrom_of_class .RRMOVQ ifun (by decide)
  exact ⟨
    ⟨hfetch 0, fun rA rB => ⟨encodedAs_encode rfl, fun s hrun => ⟨_, rfl, condMove_completes hrun .always rA rB⟩⟩⟩,
    ⟨hfetch 1, fun rA rB => ⟨encodedAs_encode rfl, fun s hrun => ⟨_, rfl, condMove_completes hrun .le rA rB⟩⟩⟩,
    ⟨hfetch 2, fun rA rB => ⟨encodedAs_encode rfl, fun s hrun => ⟨_, rfl, condMove_completes hrun .l rA rB⟩⟩⟩,
    ⟨hfetch 3, fun rA rB => ⟨encodedAs_encode rfl, fun s hrun => ⟨_, rfl, condMove_completes hrun .e rA rB⟩⟩⟩,
    ⟨hfetch 4, fun rA rB => ⟨encodedAs_encode rfl, fun s hrun => ⟨_, rfl, condMove_completes hrun .ne rA rB⟩⟩⟩,
    ⟨hfetch 5, fun rA rB => ⟨encodedAs_encode rfl, fun s hrun => ⟨_, rfl, condMove_completes hrun .ge rA rB⟩⟩⟩,
    ⟨hfetch 6, fun rA rB => ⟨encodedAs_encode rfl, fun s hrun => ⟨_, rfl, condMove_completes hrun .g rA rB⟩⟩⟩⟩

/-- Settles O30: a move that never moves is a PC update. -/
theorem reservedMoveNeverMoves : Obligations.ReservedMoveNeverMoves := by
  intro rA rB
  refine ⟨encodedAs_encode rfl, fun ifun h => encodedAs_encode (decide_eq_true h), fun ifun s hrun => ?_⟩
  exact ⟨s.pcUpdate (s.valP 2), rfl, rfl, advancesTo_pcUpdate hrun _, s.pcUpdate_cc _,
    sameRegsExcept_of_regs_eq [] (s.pcUpdate_regs _), sameMem_of_mem_eq (s.pcUpdate_mem _)⟩

/-! ### rmmovq and mrmovq -/

theorem exec_rmmovq (n : Nibble) (rA rB : RegId) (d : Word) (s : State) :
    exec (.rmmovq n rA rB d) s = .next ((s.store (s.reg rB + d) (s.reg rA)).pcUpdate (s.valP 10)) := rfl

theorem exec_mrmovq (n : Nibble) (rA rB : RegId) (d : Word) (s : State) :
    exec (.mrmovq n rA rB d) s =
      .next (((s.load (s.reg rB + d)).setReg rA (s.loadValue (s.reg rB + d))).pcUpdate (s.valP 10)) := rfl

/-- Settles O32: the two cases of a store. -/
theorem rmmovqStores : Obligations.RmmovqStores := by
  intro n rA rB d
  refine ⟨encodedAs_encode rfl, fetchAdrFrom_of_class .RMMOVQ n (by decide), fun s hrun hinv =>
    ⟨fun h => ?_, fun h => ?_⟩⟩
  · obtain ⟨hholds, hsame⟩ := holds8_of_mem_eq_store hinv (v := s.reg rA) h (State.pcUpdate_mem _ (s.valP 10))
    exact ⟨_, exec_rmmovq n rA rB d s, hholds, hsame,
      advancesTo_pcUpdate ((State.store_stat_of_inRange _ h).trans hrun) _,
      (State.pcUpdate_cc _ _).trans (s.store_cc _ _),
      sameRegsExcept_of_regs_eq [] ((State.pcUpdate_regs _ _).trans (s.store_regs _ _))⟩
  · rw [exec_rmmovq, State.store_of_outOfRange _ h]
    rfl

/-- Settles O33: the two cases of a load. -/
theorem mrmovqLoads : Obligations.MrmovqLoads := by
  intro n rA rB d
  refine ⟨encodedAs_encode rfl, fetchAdrFrom_of_class .MRMOVQ n (by decide), fun s hrun => ⟨fun h => ?_, fun h => ?_⟩⟩
  · obtain ⟨hload, hvalue⟩ := State.load_of_inRange (s := s) h
    rw [exec_mrmovq, hload, hvalue]
    exact ⟨_, _, rfl, holds8_le64 s _, writeBack_completes hrun rA _ _⟩
  · obtain ⟨hload, hvalue⟩ := State.load_of_outOfRange (s := s) h
    rw [exec_mrmovq, hload, hvalue]
    exact ⟨_, rfl, writeBack_after_ADR s rA 0 _⟩

/-- Eight bytes hold one value. -/
theorem holds8_unique {s : State} {a v w : Word} (hv : Holds8 s a v) (hw : Holds8 s a w) : v = w :=
  (le64_of_holds8 hv).symm.trans (le64_of_holds8 hw)

/-- Settles O34: the load finds the bytes that the store left. -/
theorem loadRecoversWhatWasStored : Obligations.LoadRecoversWhatWasStored := by
  intro n k rA rB rC rD d d' s t u hrun hinv hr hstore haddr hload
  obtain ⟨-, -, hstores⟩ := rmmovqStores n rA rB d
  obtain ⟨t', ht', hheld, -, ⟨htrun, -⟩, -⟩ := (hstores s hrun hinv).1 hr
  cases hstore.symm.trans ht'
  obtain ⟨-, -, hloads⟩ := mrmovqLoads k rC rD d'
  obtain ⟨u', v, hu', hfound, ⟨hreg, -⟩, ⟨hustat, -⟩, -⟩ := (hloads t htrun).1 (haddr ▸ hr)
  cases hload.symm.trans hu'
  rw [haddr] at hfound
  refine ⟨hustat, fun hC => ?_⟩
  rw [hreg, if_neg hC, holds8_unique hfound hheld]

end Sys2Proof.Machine
end

section
/-! The family `43_opq.md`: addq, subq, andq, xorq (R171 to R174), the reserved codes (R175), and what the conditions
say after a subq (R115). -/

namespace Sys2Proof.Machine

/-! ### The shared effect (R114, R170) -/

/-- ZF says that the result is 0 (R114). -/
theorem State.opq_zf (s : State) (rB : RegId) (e : Word) (o : Bool) : (s.opq rB e o).cc.zf = true ↔ e.toInt = 0 := by
  rw [State.opq_cc]
  exact decide_eq_true_iff

/-- SF says that the result is negative (R114). -/
theorem State.opq_sf (s : State) (rB : RegId) (e : Word) (o : Bool) : (s.opq rB e o).cc.sf = true ↔ e.toInt < 0 := by
  rw [State.opq_cc]
  exact decide_eq_true_iff

theorem State.opq_of (s : State) (rB : RegId) (e : Word) (o : Bool) : (s.opq rB e o).cc.of = o := by
  rw [State.opq_cc]
  rfl

/-- An OPQ writes its result to rB and changes no other register. -/
theorem writesReg_opq (s : State) (rB : RegId) (e : Word) (o : Bool) : WritesReg s (s.opq rB e o) rB e :=
  writesReg_pcUpdate _ (writesReg_setReg_of_regs_eq (s.setFlags_regs _) rB e)

/-- An OPQ completes: PC moves on by 2 and memory stays. -/
theorem opq_completes {s : State} (hrun : s.running) (rB : RegId) (e : Word) (o : Bool) :
    AdvancesTo (s.opq rB e o) (s.pc + 2) ∧ SameMem s (s.opq rB e o) :=
  ⟨⟨(s.opq_stat rB e o).trans hrun, (s.opq_pc rB e o).trans (if_pos hrun)⟩, sameMem_of_mem_eq (s.opq_mem rB e o)⟩

/-! ### Overflow (R114) -/

theorem addOverflow_iff (a b e : Word) : addOverflow a b e = true ↔
    (a.toInt > 0 ∧ b.toInt > 0 ∧ e.toInt < 0) ∨ (a.toInt < 0 ∧ b.toInt < 0 ∧ e.toInt ≥ 0) := by
  simp [addOverflow, and_assoc]

theorem subOverflow_iff (a b e : Word) : subOverflow a b e = true ↔
    (b.toInt > 0 ∧ a.toInt < 0 ∧ e.toInt < 0) ∨ (b.toInt < 0 ∧ a.toInt > 0 ∧ e.toInt ≥ 0) := by
  simp [subOverflow, and_assoc]

/-- The signed reading of a sum modulo 2^64 is off by a multiple of 2^64. -/
theorem toInt_add_eq (x y : Word) : ∃ k, (x + y).toInt = x.toInt + y.toInt + 2 ^ 64 * k := by
  obtain ⟨k, hk⟩ := Int.dvd_bmod_sub_self (x := x.toInt + y.toInt) (m := 2 ^ 64)
  exact ⟨k, by rw [BitVec.toInt_add]; omega⟩

theorem toInt_sub_eq (x y : Word) : ∃ k, (x - y).toInt = x.toInt - y.toInt + 2 ^ 64 * k := by
  obtain ⟨k, hk⟩ := Int.dvd_bmod_sub_self (x := x.toInt - y.toInt) (m := 2 ^ 64)
  exact ⟨k, by rw [BitVec.toInt_sub]; omega⟩

theorem toInt_bounds (x : Word) : -2 ^ 63 ≤ x.toInt ∧ x.toInt < 2 ^ 63 := ⟨x.le_toInt, x.toInt_lt⟩

/-- The printed predicate of an addition is exact signed overflow (R171). -/
theorem addOverflow_iff_overflows (a b : Word) : addOverflow a b (b + a) = true ↔
    ¬(-2 ^ 63 ≤ a.toInt + b.toInt ∧ a.toInt + b.toInt < 2 ^ 63) := by
  obtain ⟨k, hk⟩ := toInt_add_eq b a
  have ha := toInt_bounds a
  have hb := toInt_bounds b
  have he := toInt_bounds (b + a)
  rw [addOverflow_iff]
  omega

/-- The printed predicate of a subtraction is exact signed overflow but for 0 minus -2^63 (R172; C1, C5). -/
theorem subOverflow_iff_overflows (a b : Word) : subOverflow a b (b - a) = true ↔
    ¬(-2 ^ 63 ≤ b.toInt - a.toInt ∧ b.toInt - a.toInt < 2 ^ 63) ∧ ¬(b.toInt = 0 ∧ a.toInt = -2 ^ 63) := by
  obtain ⟨k, hk⟩ := toInt_sub_eq b a
  have ha := toInt_bounds a
  have hb := toInt_bounds b
  have he := toInt_bounds (b - a)
  rw [subOverflow_iff]
  omega

/-! ### The four operations and the reserved codes -/

theorem exec_addq (rA rB : RegId) (s : State) : exec (.addq rA rB) s =
    .next (s.opq rB (s.reg rB + s.reg rA) (addOverflow (s.reg rA) (s.reg rB) (s.reg rB + s.reg rA))) := rfl

theorem exec_subq (rA rB : RegId) (s : State) : exec (.subq rA rB) s =
    .next (s.opq rB (s.reg rB - s.reg rA) (subOverflow (s.reg rA) (s.reg rB) (s.reg rB - s.reg rA))) := rfl

theorem fetchAdrFrom_OPQ (ifun : Nibble) : FetchAdrFrom (nibbles IClass.OPQ.toNibble ifun) 0xFFFF :=
  fetchAdrFrom_of_class .OPQ ifun (by decide)

/-- Settles O35: the flags of the result, with the printed predicate and its exactness. -/
theorem addqAddsAndSetsFlags : Obligations.AddqAddsAndSetsFlags := by
  refine ⟨fetchAdrFrom_OPQ 0, fun rA rB => ⟨encodedAs_encode rfl, fun s hrun => ⟨_, exec_addq rA rB s, ?_⟩⟩⟩
  refine ⟨writesReg_opq s rB _ _, s.opq_zf rB _ _, s.opq_sf rB _ _, ?_, ?_, opq_completes hrun rB _ _⟩
  · rw [State.opq_of]
    exact addOverflow_iff _ _ _
  · rw [State.opq_of]
    exact addOverflow_iff_overflows _ _

/-- Settles O36: the flags of the result, with the printed predicate and the one case where it is not exact. -/
theorem subqSubtractsAndSetsFlags : Obligations.SubqSubtractsAndSetsFlags := by
  refine ⟨fetchAdrFrom_OPQ 1, fun rA rB => ⟨encodedAs_encode rfl, fun s hrun => ⟨_, exec_subq rA rB s, ?_⟩⟩⟩
  refine ⟨writesReg_opq s rB _ _, s.opq_zf rB _ _, s.opq_sf rB _ _, ?_, ?_, opq_completes hrun rB _ _⟩
  · rw [State.opq_of]
    exact subOverflow_iff _ _ _
  · rw [State.opq_of]
    exact subOverflow_iff_overflows _ _

/-- Settles O37: the two bitwise operations bit by bit, with OF 0. -/
theorem andqAndXorqSetFlags : Obligations.AndqAndXorqSetFlags := by
  refine ⟨⟨fetchAdrFrom_OPQ 2, fun rA rB => ⟨encodedAs_encode rfl, fun s hrun => ?_⟩⟩,
    ⟨fetchAdrFrom_OPQ 3, fun rA rB => ⟨encodedAs_encode rfl, fun s hrun => ?_⟩⟩⟩
  · exact ⟨_, s.reg rB &&& s.reg rA, rfl, fun _ _ => BitVec.getLsbD_and, writesReg_opq s rB _ _,
      s.opq_zf rB _ _, s.opq_sf rB _ _, s.opq_of rB _ _, opq_completes hrun rB _ _⟩
  · exact ⟨_, s.reg rB ^^^ s.reg rA, rfl, fun _ _ => BitVec.getLsbD_xor, writesReg_opq s rB _ _,
      s.opq_zf rB _ _, s.opq_sf rB _ _, s.opq_of rB _ _, opq_completes hrun rB _ _⟩

/-- A reserved OPQ completes with the drawn value in rB, whatever it is (R175). -/
theorem opqReserved_completes {s : State} (hrun : s.running) (rB : RegId) :
    ∃ e, WritesReg s (s.opqReserved rB) rB e ∧
      ((s.opqReserved rB).cc.zf = true ↔ e.toInt = 0) ∧ ((s.opqReserved rB).cc.sf = true ↔ e.toInt < 0) ∧
      AdvancesTo (s.opqReserved rB) (s.pc + 2) ∧ SameMem s (s.opqReserved rB) := by
  obtain ⟨e, o, he⟩ := s.opqReserved_eq rB
  rw [he]
  exact ⟨e, writesReg_opq s rB e o, s.opq_zf rB e o, s.opq_sf rB e o, opq_completes hrun rB e o⟩

/-- Settles O38: both rows are the shared effect of a reserved code. -/
theorem reservedOpqCompletes : Obligations.ReservedOpqCompletes := by
  refine ⟨fetchAdrFrom_OPQ 4, fetchAdrFrom_OPQ 15, fun rA rB =>
    ⟨fun ifun h4 h7 => ⟨encodedAs_encode (decide_eq_true ⟨h4, h7⟩), fun s hrun => ?_⟩,
      fun ifun h8 => ⟨encodedAs_encode (decide_eq_true h8), fun s hrun => ?_⟩⟩⟩
  all_goals
    obtain ⟨e, heffect⟩ := opqReserved_completes hrun rB
    exact ⟨s.opqReserved rB, e, rfl, heffect⟩

/-! ### The conditions after a subq (R115) -/

/-- The two facts that the six conditions are made of. -/
theorem conditions_of_lt_and_eq {f : Flags} {a b : Int} (hl : (f.sf ^^ f.of) = true ↔ b < a)
    (hz : f.zf = true ↔ b = a) :
    (condHolds .le f = true ↔ b ≤ a) ∧ (condHolds .l f = true ↔ b < a) ∧ (condHolds .e f = true ↔ b = a) ∧
      (condHolds .ne f = true ↔ b ≠ a) ∧ (condHolds .ge f = true ↔ b ≥ a) ∧ (condHolds .g f = true ↔ b > a) := by
  refine ⟨?_, hl, hz, ?_, ?_, ?_⟩
  all_goals
    simp only [condHolds, Bool.or_eq_true, Bool.and_eq_true, Bool.not_eq_true', ← Bool.not_eq_true, hl, hz]
  all_goals omega

/-- Settles O39: ZF says that the difference is 0, SF and OF together say its sign before it wrapped. -/
theorem conditionsCompareAfterSubq : Obligations.ConditionsCompareAfterSubq := by
  intro rA rB s t h a b hexcept
  cases (exec_subq rA rB s).symm.trans h
  obtain ⟨k, hk⟩ := toInt_sub_eq (s.reg rB) (s.reg rA)
  have ha : -2 ^ 63 ≤ a ∧ a < 2 ^ 63 := toInt_bounds (s.reg rA)
  have hb : -2 ^ 63 ≤ b ∧ b < 2 ^ 63 := toInt_bounds (s.reg rB)
  have he := toInt_bounds (s.reg rB - s.reg rA)
  have hof := subOverflow_iff_overflows (s.reg rA) (s.reg rB)
  refine conditions_of_lt_and_eq ?_ ?_
  · rw [bne_iff_ne, State.opq_of, ne_eq, Bool.eq_iff_iff, State.opq_sf, hof]
    omega
  · rw [State.opq_zf]
    omega

end Sys2Proof.Machine
end

section
/-! The families `44_jxx_call_ret.md` (jumps, call and ret, R190 to R199) and `45_pushq_popq.md` (R215 to R217). -/

namespace Sys2Proof.Machine

/-! ### Jumps (R190 to R197) -/

/-- A jump goes to its target or to PC + 9 and changes nothing else (R115, R119). -/
theorem jump_completes {s : State} (hrun : s.running) (c : Cond) (dest : Word) :
    AdvancesTo (s.jump c dest) (if condHolds c s.cc then dest else s.pc + 9) ∧ (s.jump c dest).cc = s.cc ∧
      SameRegsExcept [] s (s.jump c dest) ∧ SameMem s (s.jump c dest) :=
  ⟨⟨(s.jump_stat c dest).trans hrun, (s.jump_pc c dest).trans (if_pos hrun)⟩, s.jump_cc c dest,
    sameRegsExcept_of_regs_eq [] (s.jump_regs c dest), sameMem_of_mem_eq (s.jump_mem c dest)⟩

theorem fetchAdrFrom_JXX (ifun : Nibble) : FetchAdrFrom (nibbles IClass.JXX.toNibble ifun) 0xFFF8 :=
  fetchAdrFrom_of_class .JXX ifun (by decide)

/-- Settles O40: the seven rows are one jump, each with its condition. -/
theorem jumpsWhenConditionHolds : Obligations.JumpsWhenConditionHolds :=
  ⟨⟨fetchAdrFrom_JXX 0, fun dest => ⟨encodedAs_encode rfl, fun _ hrun => ⟨_, rfl, jump_completes hrun .always dest⟩⟩⟩,
    ⟨fetchAdrFrom_JXX 1, fun dest => ⟨encodedAs_encode rfl, fun _ hrun => ⟨_, rfl, jump_completes hrun .le dest⟩⟩⟩,
    ⟨fetchAdrFrom_JXX 2, fun dest => ⟨encodedAs_encode rfl, fun _ hrun => ⟨_, rfl, jump_completes hrun .l dest⟩⟩⟩,
    ⟨fetchAdrFrom_JXX 3, fun dest => ⟨encodedAs_encode rfl, fun _ hrun => ⟨_, rfl, jump_completes hrun .e dest⟩⟩⟩,
    ⟨fetchAdrFrom_JXX 4, fun dest => ⟨encodedAs_encode rfl, fun _ hrun => ⟨_, rfl, jump_completes hrun .ne dest⟩⟩⟩,
    ⟨fetchAdrFrom_JXX 5, fun dest => ⟨encodedAs_encode rfl, fun _ hrun => ⟨_, rfl, jump_completes hrun .ge dest⟩⟩⟩,
    ⟨fetchAdrFrom_JXX 6, fun dest => ⟨encodedAs_encode rfl, fun _ hrun => ⟨_, rfl, jump_completes hrun .g dest⟩⟩⟩⟩

/-- Settles O41: both rows are the jump that is never taken. -/
theorem reservedJumpNeverJumps : Obligations.ReservedJumpNeverJumps := by
  intro dest
  exact ⟨encodedAs_encode rfl, fun ifun _ => fetchAdrFrom_JXX ifun,
    fun ifun h => encodedAs_encode (decide_eq_true h),
    fun ifun s hrun => ⟨s.jump .never dest, rfl, rfl, jump_completes hrun .never dest⟩⟩

theorem State.stopped_of_pc_outside {s : State} (h : Config.memSize ≤ s.pc.toNat) : s.stopped = true := by
  have hin : ¬s.pc.toNat < Config.memSize := Nat.not_lt.2 h
  simp [State.stopped, ← Bool.not_eq_true, inRange1_iff, hin]

/-- Settles O45: the state after the jump has stopped, so the run ends with its record. -/
theorem jumpOutOfMemoryStopsWithAok : Obligations.JumpOutOfMemoryStopsWithAok := by
  intro s dest hrun hdest
  obtain ⟨⟨hstat, hpc⟩, -⟩ := jump_completes hrun .always dest
  have hout : Config.memSize ≤ (s.jump .always dest).pc.toNat := hpc ▸ hdest
  have hrange : inRange1 (s.jump .always dest).pc ≠ true := mt (inRange1_iff _).1 (Nat.not_lt.2 hout)
  have hstop := State.stopped_of_pc_outside hout
  refine ⟨s.jump .always dest, rfl, hstat, hpc, hstop, ?_, fun hat fuel => ?_⟩
  · simp only [State.ending, hstat, if_neg hrange]
  · have hstep : step s = .next (s.jump .always dest) := stepRunsTheEncodedInstruction s (.jmp dest) hrun rfl hat
    rw [run, State.raise_AOK_of_AOK hrun, loop_succ_of_next fuel hstep, if_pos hstop]

/-! ### What a push and a pop do to the stack (R113, R117, R118) -/

/-- A push that is in range stores its word below `rsp` and decrements `rsp`; the PC update follows. -/
theorem push_completes {s : State} (hrun : s.running) (hinv : s.Inv) (h : (s.reg .rsp - 8).toNat ≤ 0xFFF8)
    (v p : Word) :
    let t := ((s.store s.pushAddr v).setReg .rsp s.pushAddr).pcUpdate p
    Holds8 t (s.reg .rsp - 8) v ∧ SameMemExcept8 (s.reg .rsp - 8) s t ∧ WritesReg s t .rsp (s.reg .rsp - 8) ∧
      AdvancesTo t p ∧ t.cc = s.cc := by
  intro t
  have hstat : ((s.store s.pushAddr v).setReg .rsp s.pushAddr).stat = .AOK :=
    (State.store_stat_of_inRange v h).trans hrun
  obtain ⟨hholds, hsame⟩ := holds8_of_mem_eq_store (t := t) hinv h (State.pcUpdate_mem _ p)
  exact ⟨hholds, hsame, writesReg_pcUpdate p (writesReg_setReg_of_regs_eq (s.store_regs _ v) _ _),
    advancesTo_pcUpdate hstat p, (State.pcUpdate_cc _ p).trans (s.store_cc _ v)⟩

/-- A push out of range raises ADR and still decrements `rsp` (D7). -/
theorem push_faults {s : State} (h : 0xFFF8 < (s.reg .rsp - 8).toNat) (v p : Word) :
    let t := ((s.store s.pushAddr v).setReg .rsp s.pushAddr).pcUpdate p
    WritesReg s t .rsp (s.reg .rsp - 8) ∧ StopsWithAdr s t ∧ t.cc = s.cc ∧ SameMem s t := by
  have hstore : s.store s.pushAddr v = s.raise .ADR := State.store_of_outOfRange v h
  rw [hstore]
  exact writeBack_after_ADR s .rsp s.pushAddr p

theorem exec_call (n : Nibble) (dest : Word) (s : State) : exec (.call n dest) s =
    .next (((s.store s.pushAddr (s.pc + 9)).setReg .rsp s.pushAddr).pcUpdate dest) := rfl

theorem exec_pushq (n : Nibble) (rA rB : RegId) (s : State) : exec (.pushq n rA rB) s =
    .next (((s.store s.pushAddr (s.reg rA)).setReg .rsp s.pushAddr).pcUpdate (s.pc + 2)) := rfl

/-- Settles O42: a push of PC + 9, then the target. -/
theorem callPushesAndJumps : Obligations.CallPushesAndJumps := fun n dest =>
  ⟨encodedAs_encode rfl, fetchAdrFrom_of_class .CALL n (by decide), fun s hrun hinv =>
    ⟨fun h => ⟨_, exec_call n dest s, push_completes hrun hinv h _ _⟩,
      fun h => ⟨_, exec_call n dest s, push_faults h _ _⟩⟩⟩

/-- Settles O46: a push of the old rA. -/
theorem pushqStoresAndDecrements : Obligations.PushqStoresAndDecrements := fun n rA rB =>
  ⟨encodedAs_encode rfl, fetchAdrFrom_of_class .PUSHQ n (by decide), fun s hrun hinv =>
    ⟨fun h => ⟨_, exec_pushq n rA rB s, push_completes hrun hinv h _ _⟩,
      fun h => ⟨_, exec_pushq n rA rB s, push_faults h _ _⟩⟩⟩

theorem exec_ret (n : Nibble) (s : State) : exec (.ret n) s =
    .next (((s.load (s.reg .rsp)).setReg .rsp (s.reg .rsp + 8)).pcUpdate (s.loadValue (s.reg .rsp))) := rfl

/-- Settles O43: the two cases of the load at `rsp`. -/
theorem retPopsPc : Obligations.RetPopsPc := by
  refine fun n => ⟨encodedAs_encode rfl, fun s hrun => ⟨fun h => ?_, fun h => ?_⟩⟩
  · obtain ⟨hload, hvalue⟩ := State.load_of_inRange (s := s) h
    rw [exec_ret, hload, hvalue]
    exact ⟨_, _, rfl, holds8_le64 s _, writeBack_completes hrun .rsp _ _⟩
  · obtain ⟨hload, hvalue⟩ := State.load_of_outOfRange (s := s) h
    rw [exec_ret, hload, hvalue]
    exact ⟨_, rfl, writeBack_after_ADR s .rsp _ _⟩

/-- Settles O44: the word that the call pushed is the one that the ret pops. -/
theorem retUndoesCall : Obligations.RetUndoesCall := by
  intro n k dest s t u v hrun hinv hr hcall hurun hursp hubytes hret
  obtain ⟨-, -, hcalls⟩ := callPushesAndJumps n dest
  obtain ⟨t', ht', hheld, -, ⟨htrsp, -⟩, -⟩ := (hcalls s hrun hinv).1 hr
  cases hcall.symm.trans ht'
  have htrsp : t.reg .rsp = s.reg .rsp - 8 := htrsp
  rw [htrsp] at hursp hubytes
  have hheld' : Holds8 u (u.reg .rsp) (s.pc + 9) := fun j hj => by
    rw [hursp, hubytes j hj, hheld j hj]
  obtain ⟨-, hrets⟩ := retPopsPc k
  obtain ⟨v', w, hv', hw, ⟨hvrsp, -⟩, ⟨hvstat, hvpc⟩, -⟩ := (hrets u hurun).1 (hursp ▸ hr)
  cases hret.symm.trans hv'
  have hvrsp : v.reg .rsp = u.reg .rsp + 8 := hvrsp
  refine ⟨hvstat, hvpc.trans (holds8_unique hw hheld'), ?_⟩
  rw [hvrsp, hursp, BitVec.sub_add_cancel]

/-! ### popq (R216) and a push followed by a pop (R217) -/

/-- Write-back of `rsp` and then rA, the second write winning when rA is `rsp` (R118). -/
theorem popWriteBack {s u : State} (hregs : u.regs = s.regs) (rA : RegId) (v p : Word) :
    let t := ((u.setReg .rsp (s.reg .rsp + 8)).setReg rA v).pcUpdate p
    (rA ≠ .NONE → t.reg rA = v) ∧ (rA ≠ .rsp → t.reg .rsp = s.reg .rsp + 8) ∧ SameRegsExcept [.rsp, rA] s t := by
  intro t
  refine ⟨fun hA => ?_, fun hA => ?_, ?_⟩
  · rw [State.pcUpdate_reg, State.setReg_reg_self, if_neg hA]
  · rw [State.pcUpdate_reg, State.setReg_reg_of_ne _ _ _ _ hA.symm, State.setReg_reg_self, if_neg (by decide)]
  · exact sameRegsExcept_pcUpdate p (sameRegsExcept_setReg _
      (sameRegsExcept_setReg _ (sameRegsExcept_of_regs_eq _ hregs) (.head _)) (.tail _ (.head _)))

theorem exec_popq (n : Nibble) (rA rB : RegId) (s : State) : exec (.popq n rA rB) s =
    .next ((((s.load (s.reg .rsp)).setReg .rsp (s.reg .rsp + 8)).setReg rA (s.loadValue (s.reg .rsp))).pcUpdate
      (s.pc + 2)) := rfl

/-- Settles O47: the two cases of the load at `rsp`, and the order of the two writes. -/
theorem popqLoadsAndIncrements : Obligations.PopqLoadsAndIncrements := by
  refine fun n rA rB => ⟨encodedAs_encode rfl, fetchAdrFrom_of_class .POPQ n (by decide), fun s hrun =>
    ⟨fun h => ?_, fun h => ?_⟩⟩
  · obtain ⟨hload, hvalue⟩ := State.load_of_inRange (s := s) h
    rw [exec_popq, hload, hvalue]
    obtain ⟨hA, hrsp, hother⟩ := popWriteBack (s := s) rfl rA _ (s.pc + 2)
    refine ⟨_, _, rfl, holds8_le64 s _,
      ⟨hA, hrsp, hother, State.pcUpdate_cc _ _, sameMem_of_mem_eq (State.pcUpdate_mem _ _)⟩, advancesTo_pcUpdate ?_ _⟩
    exact hrun
  · obtain ⟨hload, hvalue⟩ := State.load_of_outOfRange (s := s) h
    rw [exec_popq, hload, hvalue]
    obtain ⟨hA, hrsp, hother⟩ := popWriteBack (s.raise_regs .ADR) rA 0 (s.pc + 2)
    exact ⟨_, rfl, ⟨hA, hrsp, hother, State.pcUpdate_cc _ _, sameMem_of_mem_eq (State.pcUpdate_mem _ _)⟩,
      stopsWithAdr_pcUpdate rfl rfl _⟩

/-- A state that is running has not stopped with ADR. -/
theorem not_stopsWithAdr_of_running {s t : State} (h : t.running) : ¬StopsWithAdr s t :=
  fun ⟨hadr, _⟩ => Stat.noConfusion (h.symm.trans hadr)

/-- Settles O48: the pop finds at the decremented `rsp` the word that the push stored there. -/
theorem popAfterPush : Obligations.PopAfterPush := by
  intro n k r r' rB rB' s t u hrun hinv hpush htrun hpop hurun
  obtain ⟨-, -, hpushes⟩ := pushqStoresAndDecrements n r rB
  obtain ⟨hin, hout⟩ := hpushes s hrun hinv
  have hr : (s.reg .rsp - 8).toNat ≤ 0xFFF8 := by
    by_contra hr
    obtain ⟨t', ht', -, hadr, -⟩ := hout (Nat.lt_of_not_le hr)
    cases hpush.symm.trans ht'
    exact not_stopsWithAdr_of_running htrun hadr
  obtain ⟨t', ht', hheld, -, ⟨htrsp, -⟩, -⟩ := hin hr
  cases hpush.symm.trans ht'
  have htrsp : t.reg .rsp = s.reg .rsp - 8 := htrsp
  obtain ⟨-, -, hpops⟩ := popqLoadsAndIncrements k r' rB'
  obtain ⟨u', v, hu', hfound, ⟨hval, hrsp, -⟩, -⟩ := (hpops t htrun).1 (htrsp ▸ hr)
  cases hpop.symm.trans hu'
  rw [htrsp] at hfound hrsp
  have hv : v = s.reg r := holds8_unique hfound hheld
  refine ⟨fun hne => (hval hne).trans hv, fun hne => ?_, ?_⟩
  · rw [hrsp hne, BitVec.sub_add_cancel]
  · rintro rfl
    exact (hval (by decide)).trans hv

end Sys2Proof.Machine
end

section
/-! Stores seen by Fetch (R66), runs (R120, R121, R271) and records (R269). -/

namespace Sys2Proof.Machine

/-! ### A store and the fetch after it (R66) -/

/-- Settles O49: the byte at the new PC is the low byte stored, a HALT. -/
theorem storeIsSeenByTheNextFetch : Obligations.StoreIsSeenByTheNextFetch := by
  intro n rA rB d s hrun hinv hat haddr hr hlow
  obtain ⟨-, -, hstores⟩ := rmmovqStores n rA rB d
  obtain ⟨t, ht, hheld, -, ⟨htrun, htpc⟩, -⟩ := (hstores s hrun hinv).1 hr
  rw [haddr] at hheld hr
  have hin : t.pcInside := by
    rw [State.pcInside, htpc]
    exact lt_of_le_of_lt hr (by decide)
  have hop : t.opcode = 0 := by
    rw [State.opcode, htpc]
    exact (hheld 0 (by decide)).trans hlow
  have hhalt : step t = .next (t.raise .HLT) := step_eq_raise_HLT htrun hin (hop ▸ by decide)
  exact ⟨t, t.raise .HLT, (stepRunsTheEncodedInstruction s _ hrun rfl hat).trans ht, hhalt, rfl, htpc⟩

/-! ### Runs (R120, R121) -/

/-- One turn of the loop from a running state: its record is the last one, or the loop goes on from it. -/
theorem loop_succ_cases (fuel : Nat) {s : State} (hrun : s.running) :
    ∃ t, step s = .next t ∧ ((t.stopped = true ∧ loop (fuel + 1) s = [t]) ∨
      (t.stopped = false ∧ t.running ∧ loop (fuel + 1) s = t :: loop fuel t)) := by
  obtain ⟨t, ht⟩ := step_total hrun
  refine ⟨t, ht, ?_⟩
  rw [loop_succ_of_next fuel ht]
  cases hstop : t.stopped with
  | true => exact .inl ⟨rfl, rfl⟩
  | false => exact .inr ⟨rfl, (State.stopped_eq_false.1 hstop).1, rfl⟩

theorem length_loop_le {fuel : Nat} {s : State} (hrun : s.running) : (loop fuel s).length ≤ fuel := by
  induction fuel generalizing s with
  | zero => exact Nat.le_refl 0
  | succ fuel ih =>
    obtain ⟨t, -, ⟨-, hl⟩ | ⟨-, htrun, hl⟩⟩ := loop_succ_cases fuel hrun
    · rw [hl]
      exact Nat.succ_le_succ (Nat.zero_le fuel)
    · rw [hl]
      exact Nat.succ_le_succ (ih htrun)

/-- The first record of the loop is the step of its state. -/
theorem step_of_loop_eq_cons {fuel : Nat} {s t : State} {ts : List State} (hrun : s.running)
    (h : loop fuel s = t :: ts) : step s = .next t := by
  cases fuel with
  | zero => cases h
  | succ fuel =>
    obtain ⟨u, hu, ⟨-, hl⟩ | ⟨-, -, hl⟩⟩ := loop_succ_cases fuel hrun
    · cases hl.symm.trans h
      exact hu
    · cases hl.symm.trans h
      exact hu

/-- A record that another one follows has not stopped, and the next one is its step. -/
theorem step_of_loop_consecutive {fuel : Nat} {s t u : State} {pre post : List State} (hrun : s.running)
    (h : loop fuel s = pre ++ t :: u :: post) : t.stopped = false ∧ step t = .next u := by
  induction fuel generalizing s pre with
  | zero => simp [loop] at h
  | succ fuel ih =>
    obtain ⟨w, -, ⟨-, hl⟩ | ⟨hstop, hwrun, hl⟩⟩ := loop_succ_cases fuel hrun
    · rw [hl] at h
      have hlen := congrArg List.length h
      simp only [List.length_append, List.length_cons, List.length_nil] at hlen
      omega
    · rw [hl] at h
      cases pre with
      | nil =>
        obtain ⟨rfl, htail⟩ := List.cons.inj h
        exact ⟨hstop, step_of_loop_eq_cons hwrun htail⟩
      | cons w' pre =>
        obtain ⟨-, htail⟩ := List.cons.inj h
        exact ih hwrun htail

/-- A loop that ends before its fuel does ends with a state that has stopped. -/
theorem loop_ends_stopped {fuel : Nat} {s : State} (hrun : s.running) (h : (loop fuel s).length < fuel) :
    ∃ pre t, loop fuel s = pre ++ [t] ∧ t.stopped = true := by
  induction fuel generalizing s with
  | zero => cases h
  | succ fuel ih =>
    obtain ⟨t, -, ⟨hstop, hl⟩ | ⟨-, htrun, hl⟩⟩ := loop_succ_cases fuel hrun
    · exact ⟨[], t, hl, hstop⟩
    · rw [hl] at h ⊢
      obtain ⟨pre, u, hu, hstop⟩ := ih htrun (Nat.lt_of_succ_lt_succ h)
      exact ⟨t :: pre, u, congrArg (t :: ·) hu, hstop⟩

theorem State.stopped_iff (t : State) : t.stopped = true ↔ t.stat ≠ .AOK ∨ 0x10000 ≤ t.pc.toNat := by
  rw [← not_iff_not, Bool.not_eq_true, State.stopped_eq_false, not_or, not_not, Nat.not_le]

/-- The ending that a state shows, by its STAT and by where its PC lies (R271). -/
theorem State.ending_cases (t : State) :
    (t.stat = .HLT ∧ t.ending = some .halted) ∨ (t.stat = .ADR ∧ t.ending = some .badAddress) ∨
    (t.stat = .INS ∧ t.ending = some .illegalInstruction) ∨
    (t.stat = .AOK ∧ t.pc.toNat < 0x10000 ∧ t.ending = none) ∨
    (t.stat = .AOK ∧ 0x10000 ≤ t.pc.toNat ∧ t.ending = some .leftMemory) := by
  cases hstat : t.stat with
  | HLT | ADR | INS => simp [State.ending, hstat]
  | AOK =>
    by_cases hin : inRange1 t.pc = true
    · have hlt := (inRange1_iff _).1 hin
      simp [State.ending, hstat, hin, hlt]
    · have hle := Nat.le_of_not_lt (mt (inRange1_iff _).2 hin)
      simp [State.ending, hstat, hin, hle]

/-- Settles O50: by one turn of the loop, by induction on the fuel, and by the cases of the ending. -/
theorem runEndsAtTheFirstStoppedState : Obligations.RunEndsAtTheFirstStoppedState := by
  refine ⟨fun fuel s t h => ?_, fun fuel s => ?_, fun t => ⟨t.stopped_iff, ?_⟩⟩
  · rw [run, loop_succ_of_next fuel h]
    cases hstop : t.stopped with
    | true => rfl
    | false =>
      have htrun := (State.stopped_eq_false.1 hstop).1
      rw [run, State.raise_AOK_of_AOK htrun]
  · have hrun : (s.raise .AOK).running := rfl
    exact ⟨length_loop_le hrun, fun _ _ _ _ => step_of_loop_consecutive hrun, loop_ends_stopped hrun⟩
  · rw [State.stopped_iff]
    obtain ⟨hs, he⟩ | ⟨hs, he⟩ | ⟨hs, he⟩ | ⟨hs, hpc, he⟩ | ⟨hs, hpc, he⟩ := t.ending_cases
    · simp [hs, he]
    · simp [hs, he]
    · simp [hs, he]
    · simp [hs, he, hpc]
    · simp [hs, he, hpc]

/-! ### Records (R269) -/

/-- In canonical memory the listed addresses are those whose byte is not 0. -/
theorem Memory.mem_addresses_iff {lo : Nat} {m : Memory} (hwf : m.wfFrom lo = true) (a : Nat) :
    a ∈ m.map Prod.fst ↔ m.readByte a ≠ 0 := by
  induction m generalizing lo with
  | nil => simp [Memory.readByte_nil]
  | cons cell m ih =>
    obtain ⟨b, x⟩ := cell
    simp only [Memory.wfFrom, Bool.and_eq_true, decide_eq_true_eq] at hwf
    obtain ⟨⟨-, hx⟩, hm⟩ := hwf
    by_cases hab : a = b
    · subst hab
      simpa [Memory.readByte, Memory.unlisted] using hx
    · rw [List.map_cons, List.mem_cons, or_iff_right hab, ih hm, Memory.readByte, if_neg hab]

/-- Outside memory every byte of canonical memory reads 0. -/
theorem Memory.lt_memSize_of_readByte_ne_zero {lo : Nat} {m : Memory} (hwf : m.wfFrom lo = true) {a : Nat}
    (h : m.readByte a ≠ 0) : a < Config.memSize := by
  induction m generalizing lo with
  | nil => exact absurd (Memory.readByte_nil a) h
  | cons cell m ih =>
    obtain ⟨b, x⟩ := cell
    simp only [Memory.wfFrom, Bool.and_eq_true, decide_eq_true_eq] at hwf
    obtain ⟨⟨⟨-, hb⟩, -⟩, hm⟩ := hwf
    by_cases hab : a = b
    · exact hab ▸ hb
    · rw [Memory.readByte, if_neg hab] at h
      exact ih hm h

/-- A word of memory is not 0 exactly when one of its bytes is not (R56). -/
theorem Memory.word_ne_zero_iff (m : Memory) (a : Nat) :
    (le64 (m.readBytes a 8)).toInt ≠ 0 ↔ ∃ k, k < 8 ∧ m.readByte (a + k) ≠ 0 := by
  have hzero : (le64 (m.readBytes a 8)).toInt = 0 ↔ leNat (m.readBytes a 8) = 0 := by
    rw [← toNat_le64 (m.length_readBytes a 8), BitVec.toInt_eq_toNat_cond]
    have := (le64 (m.readBytes a 8)).isLt
    omega
  have hbyte : ∀ b : Byte, b.toNat = 0 ↔ b = 0 := fun b => BitVec.toNat_inj (x := b) (y := 0)
  rw [ne_eq, hzero, leNat_readBytes, List.sum_eq_zero_iff]
  simp [hbyte]

/-- The addresses of a record's words are the aligned ones whose word is not 0. -/
theorem Memory.mem_wordAddresses_iff {m : Memory} (hwf : m.wf = true) (a : Nat) :
    a ∈ (m.map fun c => c.1 / 8 * 8).dedup ↔
      a % 8 = 0 ∧ a < 0x10000 ∧ (le64 (m.readBytes a 8)).toInt ≠ 0 := by
  rw [List.mem_dedup, Memory.word_ne_zero_iff]
  constructor
  · intro h
    obtain ⟨⟨c, x⟩, hc, rfl⟩ := List.mem_map.1 h
    have hne : m.readByte c ≠ 0 := (Memory.mem_addresses_iff hwf c).1 (List.mem_map_of_mem hc)
    have hlt := Memory.lt_memSize_of_readByte_ne_zero hwf hne
    refine ⟨Nat.mul_mod_left _ _, lt_of_le_of_lt (Nat.div_mul_le_self c 8) hlt, c % 8, Nat.mod_lt c (by decide), ?_⟩
    rwa [Nat.mul_comm, Nat.div_add_mod]
  · rintro ⟨halign, -, k, hk, hne⟩
    obtain ⟨⟨c, x⟩, hc, hck⟩ := List.mem_map.1 ((Memory.mem_addresses_iff hwf (a + k)).2 hne)
    have hck : c = a + k := hck
    refine List.mem_map.2 ⟨(c, x), hc, ?_⟩
    change c / 8 * 8 = a
    omega

/-- Settles O51: the addresses of the words are those of the nonzero ones, listed once. -/
theorem recordShowsTheNonzeroWords : Obligations.RecordShowsTheNonzeroWords := by
  rintro s ⟨hwf, -⟩
  have hmem : s.record.mem =
      ((s.mem.map fun c => c.1 / 8 * 8).dedup).map fun a => (a, (le64 (s.mem.readBytes a 8)).toInt) := rfl
  rw [hmem]
  refine ⟨?_, fun a v => ?_⟩
  · rw [List.map_map, Function.comp_def, List.map_id']
    exact List.nodup_dedup _
  · rw [List.mem_map]
    constructor
    · rintro ⟨a', ha', he⟩
      obtain ⟨rfl, rfl⟩ := Prod.mk.inj he
      obtain ⟨halign, hlt, hne⟩ := (Memory.mem_wordAddresses_iff hwf a').1 ha'
      exact ⟨halign, hlt, hne, rfl⟩
    · rintro ⟨halign, hlt, hne, hv⟩
      rw [hv] at hne
      refine ⟨a, (Memory.mem_wordAddresses_iff hwf a).2 ⟨halign, hlt, hne⟩, ?_⟩
      rw [hv]

end Sys2Proof.Machine
end
